-- ==== Sys2Proof/Word.lean ====
section
/-! DEFINITION. The value types of the FCR: bytes, the 16-bit transaction header, the 32-bit CSR value
(spec/00_scope.md R16, spec/30_encoding.md R87, spec/10_state.md R42). No value is signed (R16). -/

namespace Sys2Proof

/-- An unsigned 8-bit value (R16). -/
abbrev Byte := BitVec 8

/-- The 16-bit header of a host transaction (R87). -/
abbrev Header := BitVec 16

/-- The value of a CSR, 32 bits wide (R42). -/
abbrev Word := BitVec 32

end Sys2Proof
end

