-- ==== Sys2Proof/Config.lean ====
section
/-! DEFINITION. The named constants of spec/00_scope.md (R8 to R15 ask for names, not inlined literals), the
bounds of the two parameters, and the model's one free value. -/

namespace Sys2Proof.Config

/-- R8: the opening framing marker. -/
abbrev START : Byte := 0x68#8

/-- R8: the closing framing marker. -/
abbrev END : Byte := 0x16#8

/-- R9: the line terminator. -/
abbrev NL : Byte := 0x0A#8

/-- R10: the longest payload. -/
abbrev MAX_PAYLOAD : Nat := 253

/-- R10: the longest valid frame. -/
abbrev MAX_FRAME : Nat := 261

/-- R11: below this length the decoder says TooShort and a START-headed buffer waits. -/
abbrev MIN_DEC : Nat := 6

/-- R12: the least BUF_CAP. -/
abbrev BUF_CAP_MIN : Nat := 261

/-- R12: the greatest BUF_CAP. -/
abbrev BUF_CAP_MAX : Nat := 65535

/-- R13: the greatest N_CHANNELS (the least is 1). -/
abbrev N_CHANNELS_MAX : Nat := 16

/-- R14, R100: assembler default of the control byte. -/
abbrev REQ_CONTROL : Byte := 0x53#8

/-- R14, R100: control byte of the REPLY pseudo-instruction. -/
abbrev RESP_CONTROL : Byte := 0x73#8

/-- R14, R100: assembler default of the address byte. -/
abbrev REQ_ADDRESS : Byte := 0x01#8

/-- R101: the largest payload the `n` field of ENCODE expresses. -/
abbrev ENCODE_MAX : Nat := 255

/-- R90, R101: the longest input the `m` field of DECODE expresses. -/
abbrev DECODE_MAX : Nat := 4095

/-- Free value, log 6 (DESIGN CHOICE, safe): HEAD_STATE of a buffer for which R36 lists no case. R36 defines
HEAD_STATE at quiescence only, where exactly one case holds. No body: nothing can be proved about its value. -/
opaque headStateOpen : List Byte → BitVec 2

end Sys2Proof.Config
end

