-- ==== Sys2Proof/Syntax.lean ====
section
/-! DEFINITION. The twelve rows of spec/opcode_table.json as one inductive, and the two forms in which the block
meets them: a host transaction (spec/30_encoding.md R87) and a buffer head (R96). -/

namespace Sys2Proof

/-- One constructor per row of the opcode table. Operands as the row's rule names them; the step actions have none
(R144 to R150: "Operands: none (internal step)"): they act on the channel of the FEED in progress. -/
inductive Instr where
  /-- FEED (R88, R140): channel and byte. -/
  | feed (ch : BitVec 4) (b : Byte)
  /-- ENCODE (R89, R111): control, address, payload. -/
  | encode (control address : Byte) (payload : List Byte)
  /-- DECODE (R90, R116): the bytes to decode. -/
  | decode (f : List Byte)
  /-- CSR_RD (R91, R180): channel and CSR index. -/
  | csrRd (ch : BitVec 4) (k : Byte)
  /-- CSR_WR (R92, R181): channel, CSR index and value. -/
  | csrWr (ch : BitVec 4) (k : Byte) (v : Word)
  /-- R_IDLE (R144). -/
  | rIdle
  /-- R_WAIT_HDR (R145). -/
  | rWaitHdr
  /-- R_RESYNC (R146). -/
  | rResync
  /-- R_WAIT_BODY (R147). -/
  | rWaitBody
  /-- R_FRAME (R148). -/
  | rFrame
  /-- R_LINE (R149). -/
  | rLine
  /-- R_WAIT_LINE (R150). -/
  | rWaitLine
deriving DecidableEq, Repr

/-- A host transaction: header and operand bytes (R87). -/
structure Transaction where
  header : Header
  ops : List Byte
deriving DecidableEq, Repr

/-- What an instruction is read from: a host transaction, or the buffer of the channel whose DRAIN is running. -/
inductive Encoding where
  | host (t : Transaction)
  | head (buf : List Byte)
deriving DecidableEq, Repr

/-- The assigned CSR indices (spec/10_state.md R42). -/
inductive Csr where
  | ctrl
  | status
  | resyncCnt
  | cap
deriving DecidableEq, Repr

end Sys2Proof
end

