-- ==== Sys2Proof/WellFormed.lean ====
section
/-! DEFINITION. Which instructions the encoding can express (spec/30_encoding.md R89, R90, R101). A channel of at
least N_CHANNELS and a CSR index of at least 4 are expressible: they answer IllegalOp when run (R93). -/

namespace Sys2Proof

/-- R89 and R90: the payload length fits the 8-bit `n`, the input length fits the 12-bit `m`. -/
def Instr.wf : Instr → Bool
  | .feed _ _ => true
  | .encode _ _ payload => decide (payload.length ≤ Config.ENCODE_MAX)
  | .decode f => decide (f.length ≤ Config.DECODE_MAX)
  | .csrRd _ _ => true
  | .csrWr _ _ _ => true
  | .rIdle => true
  | .rWaitHdr => true
  | .rResync => true
  | .rWaitBody => true
  | .rFrame => true
  | .rLine => true
  | .rWaitLine => true

end Sys2Proof
end

