-- ==== Sys2Proof/Decode.lean ====
section
/-! DEFINITION. Reading an instruction: the host transactions of spec/30_encoding.md R87 to R93 and the buffer-head
patterns of R96 (`sel`, spec/41_reassembler.md R143). Then the encoder, and the two readings the host asks for by
opcode-table word. -/

namespace Sys2Proof

/-! ### Byte sequences (spec/00_scope.md R17) -/

/-- `s[i]`. Every rule reads inside the sequence (R61, R120), so the 0 of an offset past the end is never used, log 10. -/
def byteAt (s : List Byte) (i : Nat) : Byte := s.getD i 0#8

/-- `s[i..j)`, empty when `j <= i` (R17). -/
def slice (s : List Byte) (i j : Nat) : List Byte := (s.drop i).take (j - i)

/-- `L + 6`, the length of a frame whose length byte is `l` (R83), on natural numbers: R241 forbids a wrap. -/
def frameLen (l : Byte) : Nat := l.toNat + 6

/-! ### Fields of the header (R87) -/

def Header.op (h : Header) : BitVec 4 := h.extractLsb' 12 4
def Header.ch (h : Header) : BitVec 4 := h.extractLsb' 8 4
def Header.imm (h : Header) : Byte := h.extractLsb' 0 8
/-- The 12-bit length `m` of DECODE (R90). -/
def Header.len (h : Header) : BitVec 12 := h.extractLsb' 0 12

/-- A header from its fields (R88, R89, R91, R92). -/
def Header.ofFields (op ch : BitVec 4) (imm : Byte) : Header := op ++ ch ++ imm

/-- The header of DECODE (R90). -/
def Header.ofLen (op : BitVec 4) (m : BitVec 12) : Header := op ++ m

/-! ### The CSR_WR operand, least significant byte first (R65, R92) -/

/-- `o0 | o1 << 8 | o2 << 16 | o3 << 24` (R65). -/
def wordOfBytes (o0 o1 o2 o3 : Byte) : Word :=
  o0.setWidth 32 ||| (o1.setWidth 32 <<< 8) ||| (o2.setWidth 32 <<< 16) ||| (o3.setWidth 32 <<< 24)

/-- `[v[7:0], v[15:8], v[23:16], v[31:24]]` (R181). -/
def bytesOfWord (v : Word) : List Byte :=
  [v.extractLsb' 0 8, v.extractLsb' 8 8, v.extractLsb' 16 8, v.extractLsb' 24 8]

/-! ### Decoding a host transaction -/

/-- Why a transaction is no instruction: conditions 1, 2 and 4 of R93. Conditions 3 (channel out of range) and 5
(CSR index) depend on the machine and are checked by the instructions (R180, R181 place the index check there). -/
inductive Illegal where
  /-- R93 condition 1. -/
  | reservedOp
  /-- R93 condition 2. -/
  | reservedField
  /-- R93 condition 4. -/
  | operandCount
deriving DecidableEq, Repr

/-- R88: no operand bytes. -/
def decodeFeed (t : Transaction) : Except Illegal Instr :=
  if t.ops = [] then .ok (.feed t.header.ch t.header.imm) else .error .operandCount

/-- R89: bits 11:8 zero, then control, address and `n` payload bytes. -/
def decodeEncode (t : Transaction) : Except Illegal Instr :=
  if t.header.ch ≠ 0#4 then .error .reservedField
  else match t.ops with
    | control :: address :: payload =>
      if payload.length = t.header.imm.toNat then .ok (.encode control address payload) else .error .operandCount
    | _ => .error .operandCount

/-- R90: `m` operand bytes. -/
def decodeDecode (t : Transaction) : Except Illegal Instr :=
  if t.ops.length = t.header.len.toNat then .ok (.decode t.ops) else .error .operandCount

/-- R91: no operand bytes. -/
def decodeCsrRd (t : Transaction) : Except Illegal Instr :=
  if t.ops = [] then .ok (.csrRd t.header.ch t.header.imm) else .error .operandCount

/-- R92: four operand bytes. -/
def decodeCsrWr (t : Transaction) : Except Illegal Instr :=
  match t.ops with
  | [o0, o1, o2, o3] => .ok (.csrWr t.header.ch t.header.imm (wordOfBytes o0 o1 o2 o3))
  | _ => .error .operandCount

/-- R87, R93: the operation by bits 15:12. -/
def decodeHost (t : Transaction) : Except Illegal Instr :=
  match t.header.op.toNat with
  | 1 => decodeFeed t
  | 2 => decodeEncode t
  | 3 => decodeDecode t
  | 4 => decodeCsrRd t
  | 5 => decodeCsrWr t
  | _ => .error .reservedOp

/-! ### Selecting a step action (R96, R143) -/

/-- R143, branch by branch. Total: every buffer has exactly one action (R97). -/
def sel (buf : List Byte) : Instr :=
  if buf.length = 0 then .rIdle
  else if byteAt buf 0 = Config.START then
    if buf.length < Config.MIN_DEC then .rWaitHdr
    else if byteAt buf 1 ≠ byteAt buf 2 then .rResync
    else if buf.length < frameLen (byteAt buf 1) then .rWaitBody
    else .rFrame
  else if Config.NL ∈ buf then .rLine
  else .rWaitLine

/-- Decoding, total on every transaction and every buffer. -/
def decode : Encoding → Except Illegal Instr
  | .host t => decodeHost t
  | .head buf => .ok (sel buf)

/-! ### The encoder -/

/-- The instruction's encoding: for a host operation the transaction of R88 to R92. A step action is a pattern with a
guard (R96) that many buffers match; here one of them, the shortest. -/
def encode : Instr → Encoding
  | .feed ch b => .host ⟨Header.ofFields 0x1#4 ch b, []⟩
  | .encode control address payload =>
    .host ⟨Header.ofFields 0x2#4 0x0#4 (BitVec.ofNat 8 payload.length), control :: address :: payload⟩
  | .decode f => .host ⟨Header.ofLen 0x3#4 (BitVec.ofNat 12 f.length), f⟩
  | .csrRd ch k => .host ⟨Header.ofFields 0x4#4 ch k, []⟩
  | .csrWr ch k v => .host ⟨Header.ofFields 0x5#4 ch k, bytesOfWord v⟩
  | .rIdle => .head []
  | .rWaitHdr => .head [Config.START]
  | .rResync => .head [Config.START, 0#8, 1#8, 0#8, 0#8, 0#8]
  | .rWaitBody => .head [Config.START, 1#8, 1#8, 0#8, 0#8, 0#8]
  | .rFrame => .head [Config.START, 0#8, 0#8, 0#8, 0#8, 0#8]
  | .rLine => .head [Config.NL]
  | .rWaitLine => .head [0#8]

/-! ### Opcode-table words -/

/-- How many operand bytes a header asks for (R88 to R92, R93 condition 4); 0 for a reserved OP. -/
def requiredOps (h : Header) : Nat :=
  match h.op.toNat with
  | 2 => h.imm.toNat + 2
  | 3 => h.len.toNat
  | 5 => 4
  | _ => 0

/-- The transaction an opcode-table word of `nbits` bits stands for: its low 16 bits are the header, the bits above
them operand bytes in order, zero above `nbits`. -/
def transactionOfWord (nbits w : Nat) : Transaction :=
  let v := w % 2 ^ nbits
  let h : Header := BitVec.ofNat 16 v
  ⟨h, (List.range (requiredOps h)).map fun i => BitVec.ofNat 8 (v >>> (16 + 8 * i))⟩

/-- The buffer a 24-bit pattern word stands for: `H0` in bits 23:16, `H1` in 15:8, `H2` in 7:0 (R96), followed by zero
bytes up to MIN_DEC, the shortest buffer of which all three bytes are examined. A word does not give the length `N`
that the guards of R96 need: DESIGN CHOICE, log 7. -/
def headOfWord (w : Nat) : List Byte :=
  [BitVec.ofNat 8 (w >>> 16), BitVec.ofNat 8 (w >>> 8), BitVec.ofNat 8 w, 0#8, 0#8, 0#8]

/-- The number of bits of the step-action rows of the opcode table. -/
abbrev headBits : Nat := 24

/-- The instruction the decoder reads from an opcode-table word: 24 bits are a buffer-head pattern, 16 bits and more a
host transaction. -/
def decodeTableWord (nbits w : Nat) : Option Instr :=
  if nbits = headBits then some (sel (headOfWord w))
  else if nbits < 16 then none
  else (decodeHost (transactionOfWord nbits w)).toOption

end Sys2Proof
end

