-- ==== Sys2Proof/Machine/State.lean ====
section
/-! DEFINITION. The state of the FCR as plain data (spec/10_state.md R32, R39, R49), the responses it gives
(spec/30_encoding.md R94, R95; spec/60_exceptions.md R200), and the state after reset. -/

namespace Sys2Proof.Machine

/-- The six kinds, in check order (spec/40_codec.md R126, spec/60_exceptions.md R200). -/
inductive DecodeError where
  | tooShort
  | badStart
  | lengthMismatch
  | sizeMismatch
  | checksumMismatch
  | badEnd
deriving DecidableEq, Repr

/-- The statuses that occur (R200). The reserved codes 0x09..0xFF are never produced. -/
inductive Status where
  | ok
  | decodeError (k : DecodeError)
  | encodeTooLong
  | illegalOp
deriving DecidableEq, Repr

/-- The fields of a decoded frame (spec/40_codec.md R123). -/
structure Frame where
  control : Byte
  address : Byte
  payload : List Byte
deriving DecidableEq, Repr

/-- The data of a response (R94). -/
inductive Data where
  /-- No data: CSR_WR, and every error. -/
  | none
  /-- FEED: the units it emitted, each as the byte record of R95. -/
  | records (us : List (List Byte))
  /-- ENCODE: the frame bytes. -/
  | bytes (f : List Byte)
  /-- DECODE: control, address, payload. -/
  | fields (d : Frame)
  /-- CSR_RD: the 32-bit value. -/
  | value (v : Word)
deriving DecidableEq, Repr

/-- `(status, data)` (R94). -/
structure Response where
  status : Status
  data : Data
deriving DecidableEq, Repr

/-- A unit of the reassembler (spec/10_state.md R39). -/
inductive StreamUnit where
  | frameOk (control address : Byte) (payload raw : List Byte)
  | frameErr (kind : DecodeError) (raw : List Byte)
  | text (raw : List Byte)
deriving DecidableEq, Repr

/-- The state of one channel (R32). STATUS, CTRL and CAP hold none of their own. -/
structure Channel where
  /-- The reassembly buffer; the head of the list is the oldest byte (R33). -/
  buf : List Byte
  /-- R37. -/
  resyncCnt : Word
  /-- UNITS: every unit emitted, in order (R39). -/
  units : List StreamUnit
deriving DecidableEq, Repr

/-- A FEED whose DRAIN is running: the channel it names and its unit list `U` (spec/41_reassembler.md R140). -/
structure FeedInProgress where
  ch : Nat
  units : List StreamUnit
deriving DecidableEq, Repr

/-- What the host does, in order. -/
inductive HostEvent where
  /-- Issues a transaction (R87). -/
  | issue (t : Transaction)
  /-- Gives up a FEED that is not accepted (spec/95_test_vectors.md P5). -/
  | withdraw
  /-- Resets the block, between transactions (spec/70_reset_and_hazards.md R230). -/
  | reset
deriving DecidableEq, Repr

/-- Why the machine stops. The block itself never stops (R206); this is the model's own, log 5. -/
inductive Fault where
  /-- Raised by the meanings of the seven step actions: the action was asked for where no FEED is in progress or where
  `sel` selects another one, and no rule gives it an effect there (R142, R143). Safe: the machine stops. No step from a
  state between transactions reaches it. -/
  | stepNotSelected
deriving DecidableEq, Repr

/-- Why an instruction has no meaning. -/
inductive Refusal where
  /-- Raised only by an arm of `exec` whose instruction has no meaning yet; there is none. Safe: the machine stops. -/
  | notModelled (mnemonic : String)
deriving DecidableEq, Repr

/-- The machine. `bufCap` and the number of channels are the parameters of R12 and R13, fixed for a run; `channels` and
`feed` are the block's state; `pending` and `responses` are the host's side of the interface, which the block does not
read back. One host (R212): one queue of events and one list of answers. One privilege level (R213): no mode. -/
structure State where
  /-- BUF_CAP (R12). -/
  bufCap : Nat
  /-- RSM[0 .. N_CHANNELS-1]; its length is N_CHANNELS (R13, R216). -/
  channels : List Channel
  /-- The FEED whose DRAIN is running; `none` between transactions (R40). -/
  feed : Option FeedInProgress
  /-- The host's events still to come, in issue order (R31, R70). -/
  pending : List HostEvent
  /-- Every response given, oldest first (R94). -/
  responses : List Response
deriving DecidableEq, Repr

/-- A channel after reset with nothing emitted before (R49). -/
def Channel.fresh : Channel := ⟨[], 0#32, []⟩

/-- The state after reset of a block with the given parameters, nothing issued and nothing emitted (R49, R230). -/
def State.resetWith (bufCap nChannels : Nat) : State :=
  ⟨bufCap, List.replicate nChannels Channel.fresh, none, [], []⟩

/-- The state after reset. DESIGN CHOICE, log 1: the open parameters are BUF_CAP = 261 and N_CHANNELS = 2, those of
spec/95_test_vectors.md. -/
def State.reset : State := State.resetWith 261 2

end Sys2Proof.Machine
end

