-- ==== Sys2Proof/Machine/Ops.lean ====
section
/-! DEFINITION. The operations the meanings share: access to a channel, responding, raising an error
(spec/60_exceptions.md R209), emitting a unit, CLEAR and reset. -/

namespace Sys2Proof.Machine

/-- The outcome of a meaning. -/
abbrev Result := Host.Outcome State Fault Refusal

/-- Run `k` on the next state; a stop stays a stop. -/
def andThen (r : Result) (k : State → Result) : Result :=
  match r with
  | .next s => k s
  | .fault e => .fault e
  | .refused e => .refused e

/-- N_CHANNELS (R13). -/
def State.nChannels (s : State) : Nat := s.channels.length

/-- The buffer of channel `ch`; empty for a channel the block does not have (never used, log 10). -/
def State.bufOf (s : State) (ch : Nat) : List Byte :=
  match s.channels[ch]? with
  | some c => c.buf
  | none => []

/-- Channel `ch` becomes `c`; nothing where the block has no such channel. -/
def State.setChannel (s : State) (ch : Nat) (c : Channel) : State :=
  { s with channels := s.channels.set ch c }

/-- `respond(st, data)` (R19, R94). -/
def State.respond (s : State) (st : Status) (d : Data) : State :=
  { s with responses := s.responses ++ [⟨st, d⟩] }

/-- `raise E()`: this FCR's whole "taking an exception". R209: it saves no state, changes no mode, jumps nowhere; the
transaction responds with the code of `E`, no data, and has no other effect. R212: the answer goes to the one host, in
band; nothing delegates or virtualises an error. -/
def State.raise (s : State) (st : Status) : State := s.respond st .none

/-- Run `act` on the channel a transaction names; IllegalOp where the block has no such channel (R93 condition 3). -/
def onChannel (ch : BitVec 4) (s : State) (act : Channel → Result) : Result :=
  match s.channels[ch.toNat]? with
  | some c => act c
  | none => .next (s.raise .illegalOp)

/-- `clear()` (spec/42_control.md R182): units already emitted stay. -/
def Channel.clear (c : Channel) : Channel := { c with buf := [], resyncCnt := 0#32 }

/-- `drop(k)` (R19). -/
def Channel.drop (c : Channel) (k : Nat) : Channel := { c with buf := c.buf.drop k }

/-- Reset of the block (R230, R49): CLEAR on every channel (R233). Between transactions, so no FEED is in progress. -/
def State.resetChannels (s : State) : State :=
  { s with channels := s.channels.map Channel.clear, feed := none }

/-- `emit U` (R19): to the unit list of the FEED in progress and to UNITS of its channel, whose state is `c`. -/
def State.emit (s : State) (f : FeedInProgress) (c : Channel) (u : StreamUnit) : State :=
  { s with channels := s.channels.set f.ch { c with units := c.units ++ [u] },
           feed := some { f with units := f.units ++ [u] } }

/-- The code of a decode error kind (R200). -/
def DecodeError.code : DecodeError → Byte
  | .tooShort => 0x01#8
  | .badStart => 0x02#8
  | .lengthMismatch => 0x03#8
  | .sizeMismatch => 0x04#8
  | .checksumMismatch => 0x05#8
  | .badEnd => 0x06#8

/-- The 8-bit status code (R200). -/
def Status.code : Status → Byte
  | .ok => 0x00#8
  | .decodeError k => k.code
  | .encodeTooLong => 0x07#8
  | .illegalOp => 0x08#8

/-- The bytes a unit consumed from the buffer (R39). -/
def StreamUnit.raw : StreamUnit → List Byte
  | .frameOk _ _ _ raw => raw
  | .frameErr _ raw => raw
  | .text raw => raw

/-- TAG of the unit record (R95). -/
def StreamUnit.tag : StreamUnit → Byte
  | .frameOk _ _ _ _ => 0x00#8
  | .frameErr _ _ => 0x01#8
  | .text _ => 0x02#8

/-- KIND of the unit record (R95). -/
def StreamUnit.kind : StreamUnit → Byte
  | .frameOk _ _ _ _ => 0x00#8
  | .frameErr k _ => k.code
  | .text _ => 0x00#8

/-- The byte record in which a unit leaves the block: TAG, KIND, LEN_LO, LEN_HI, RAW (R95, R65). -/
def StreamUnit.record (u : StreamUnit) : List Byte :=
  u.tag :: u.kind :: BitVec.ofNat 8 u.raw.length :: BitVec.ofNat 8 (u.raw.length / 256) :: u.raw

end Sys2Proof.Machine
end

