-- ==== Sys2Proof/Machine/Flags.lean ====
section
/-! DEFINITION. The computed fields of STATUS (spec/10_state.md R36, R44) and the checksum (spec/40_codec.md R110).
The FCR has no condition codes (R41). -/

namespace Sys2Proof.Machine

/-- `HEAD_STATE(buf)` (R36). Where R36 lists no case (never between transactions) the value is free, log 6. -/
def headState (buf : List Byte) : BitVec 2 :=
  if buf.length = 0 then 0#2
  else if byteAt buf 0 = Config.START then
    if buf.length < Config.MIN_DEC then 1#2
    else if byteAt buf 1 = byteAt buf 2 ∧ buf.length < frameLen (byteAt buf 1) then 2#2
    else Config.headStateOpen buf
  else if Config.NL ∈ buf then Config.headStateOpen buf
  else 3#2

/-- FULL (R44). -/
def fullBit (bufCap : Nat) (buf : List Byte) : BitVec 1 := if buf.length = bufCap then 1#1 else 0#1

/-- STATUS: `zext_32(FULL << 18 | HEAD_STATE(buf) << 16 | |buf|)` (R44, R180). `|buf| <= 65535` (R35) fits BUF_LEN. -/
def statusWord (bufCap : Nat) (buf : List Byte) : Word :=
  ((fullBit bufCap buf).setWidth 32 <<< 18) ||| ((headState buf).setWidth 32 <<< 16) |||
    (BitVec.ofNat 16 buf.length).setWidth 32

/-- CAP: BUF_CAP in bits 15:0, bits 31:16 zero (R46). -/
def capWord (bufCap : Nat) : Word := (BitVec.ofNat 16 bufCap).setWidth 32

/-- The exact sum of the bytes (R18). -/
def byteSum (s : List Byte) : Nat := (s.map BitVec.toNat).sum

/-- `CKSUM(s) = sum(s) mod 256` (R110). -/
def cksum (s : List Byte) : Byte := BitVec.ofNat 8 (byteSum s)

end Sys2Proof.Machine
end

