-- ==== Sys2Proof/Machine/Operands.lean ====
section
/-! DEFINITION. Operand forms. The header fields and the four-byte CSR_WR operand are read in Decode.lean; what is
left is the CSR index (spec/10_state.md R42, R48). -/

namespace Sys2Proof.Machine

/-- The CSR of index `k`; an index of at least 0x04 names none (R48). -/
def csrOf (k : Byte) : Option Csr :=
  match k.toNat with
  | 0 => some .ctrl
  | 1 => some .status
  | 2 => some .resyncCnt
  | 3 => some .cap
  | _ => none

end Sys2Proof.Machine
end

