-- ==== Sys2Proof/Machine/Control.lean ====
section
/-! DEFINITION. Control and status access (spec/42_control.md): CSR_RD and CSR_WR. -/

namespace Sys2Proof.Machine

/-- The value CSR_RD returns (R180). CTRL reads 0 (R43). -/
def csrValue (bufCap : Nat) (c : Channel) : Csr → Word
  | .ctrl => 0#32
  | .status => statusWord bufCap c.buf
  | .resyncCnt => c.resyncCnt
  | .cap => capWord bufCap

/-- What CSR_WR does to the channel (R181): CTRL with bit 0 set clears it, bits 31:1 are ignored; the other CSRs are
read-only and a write to them is ignored (R183). -/
def csrWritten (c : Channel) (v : Word) : Csr → Channel
  | .ctrl => if v.getLsbD 0 then c.clear else c
  | .status => c
  | .resyncCnt => c
  | .cap => c

/-- CSR_RD (R180). -/
def execCsrRd (ch : BitVec 4) (k : Byte) (s : State) : Result :=
  onChannel ch s fun c =>
    match csrOf k with
    | some r => .next (s.respond .ok (.value (csrValue s.bufCap c r)))
    | none => .next (s.raise .illegalOp)

/-- CSR_WR (R181). -/
def execCsrWr (ch : BitVec 4) (k : Byte) (v : Word) (s : State) : Result :=
  onChannel ch s fun c =>
    match csrOf k with
    | some r => .next ((s.setChannel ch.toNat (csrWritten c v r)).respond .ok .none)
    | none => .next (s.raise .illegalOp)

end Sys2Proof.Machine
end

