-- ==== Sys2Proof/Machine/Codec.lean ====
section
/-! DEFINITION. The frame codec (spec/40_codec.md): `enc`, `dec`, and the meanings of ENCODE and DECODE. The codec
holds no state (spec/10_state.md R38). -/

namespace Sys2Proof.Machine

/-- `enc(control, address, payload)` (R111): the frame of R80. -/
def enc (control address : Byte) (payload : List Byte) : List Byte :=
  let l : Byte := BitVec.ofNat 8 (2 + payload.length)
  let body := control :: address :: payload
  [Config.START, l, l, Config.START] ++ body ++ [cksum body, Config.END]

/-- `dec(f)` (R116): six checks in order, the first failing one decides (R126). Total (R125). -/
def dec (f : List Byte) : Except DecodeError Frame :=
  let l := (byteAt f 1).toNat
  if f.length < Config.MIN_DEC then .error .tooShort
  else if byteAt f 0 ≠ Config.START ∨ byteAt f 3 ≠ Config.START then .error .badStart
  else if byteAt f 1 ≠ byteAt f 2 then .error .lengthMismatch
  else if f.length ≠ frameLen (byteAt f 1) ∨ l < 2 then .error .sizeMismatch
  else if cksum (slice f 4 (4 + l)) ≠ byteAt f (4 + l) then .error .checksumMismatch
  else if byteAt f (5 + l) ≠ Config.END then .error .badEnd
  else .ok ⟨byteAt f 4, byteAt f 5, slice f 6 (4 + l)⟩

/-- The status and data a verdict answers with (R116, R124). -/
def respondVerdict (v : Except DecodeError Frame) (s : State) : State :=
  match v with
  | .ok d => s.respond .ok (.fields d)
  | .error k => s.raise (.decodeError k)

/-- ENCODE (R111, R113). -/
def execEncode (control address : Byte) (payload : List Byte) (s : State) : Result :=
  if payload.length > Config.MAX_PAYLOAD then .next (s.raise .encodeTooLong)
  else .next (s.respond .ok (.bytes (enc control address payload)))

/-- DECODE (R116). -/
def execDecode (f : List Byte) (s : State) : Result := .next (respondVerdict (dec f) s)

end Sys2Proof.Machine
end

