-- ==== Sys2Proof/Machine/Reassembler.lean ====
section
/-! DEFINITION. The stream reassembler (spec/41_reassembler.md): the seven step actions, DRAIN, and FEED. -/

namespace Sys2Proof.Machine

/-! ### The step actions (R144 to R150) -/

/-- A step action runs on the channel of the FEED in progress, where `sel` selects it (R142, R143). Elsewhere no rule
gives it an effect: fault, log 5. -/
def whenSelected (i : Instr) (s : State) (act : FeedInProgress → Channel → State) : Result :=
  match s.feed with
  | none => .fault .stepNotSelected
  | some f =>
    match s.channels[f.ch]? with
    | none => .fault .stepNotSelected
    | some c => if sel c.buf = i then .next (act f c) else .fault .stepNotSelected

/-- `exit` from DRAIN (R142), after which the one thing left of FEED is `respond(OK, U)` (R140). The channel does not
change. -/
def State.exitDrain (s : State) (f : FeedInProgress) : State :=
  ({ s with feed := none } : State).respond .ok (.records (f.units.map StreamUnit.record))

/-- The unit R_FRAME emits for the bytes `f` (R148). -/
def frameUnit (f : List Byte) : StreamUnit :=
  match dec f with
  | .ok d => .frameOk d.control d.address d.payload f
  | .error k => .frameErr k f

/-- R_IDLE (R144): stop with an empty buffer. -/
def execRIdle (s : State) : Result := whenSelected .rIdle s fun f _ => s.exitDrain f

/-- R_WAIT_HDR (R145): stop, START-headed and shorter than 6 bytes. -/
def execRWaitHdr (s : State) : Result := whenSelected .rWaitHdr s fun f _ => s.exitDrain f

/-- R_RESYNC (R146): drop the leading START and count it modulo 2^32. No unit (R158). -/
def execRResync (s : State) : Result :=
  whenSelected .rResync s fun f c =>
    s.setChannel f.ch { c.drop 1 with resyncCnt := c.resyncCnt + 1#32 }

/-- R_WAIT_BODY (R147): stop, fewer than `L + 6` bytes. -/
def execRWaitBody (s : State) : Result := whenSelected .rWaitBody s fun f _ => s.exitDrain f

/-- R_FRAME (R148): extract `L + 6` bytes and emit their verdict. -/
def execRFrame (s : State) : Result :=
  whenSelected .rFrame s fun f c =>
    let e := frameLen (byteAt c.buf 1)
    s.emit f (c.drop e) (frameUnit (slice c.buf 0 e))

/-- R_LINE (R149): emit the bytes up to and including the first NL. -/
def execRLine (s : State) : Result :=
  whenSelected .rLine s fun f c =>
    let k := c.buf.idxOf Config.NL
    s.emit f (c.drop (k + 1)) (.text (slice c.buf 0 (k + 1)))

/-- R_WAIT_LINE (R150): stop, not START-headed and no NL. -/
def execRWaitLine (s : State) : Result := whenSelected .rWaitLine s fun f _ => s.exitDrain f

/-! ### DRAIN (R142) -/

/-- The case split of DRAIN over the selected action. A host operation is never selected. -/
def runAction (i : Instr) (s : State) : Result :=
  match i with
  | .rIdle => execRIdle s
  | .rWaitHdr => execRWaitHdr s
  | .rResync => execRResync s
  | .rWaitBody => execRWaitBody s
  | .rFrame => execRFrame s
  | .rLine => execRLine s
  | .rWaitLine => execRWaitLine s
  | .feed _ _ => .fault .stepNotSelected
  | .encode _ _ _ => .fault .stepNotSelected
  | .decode _ => .fault .stepNotSelected
  | .csrRd _ _ => .fault .stepNotSelected
  | .csrWr _ _ _ => .fault .stepNotSelected

/-- DRAIN (R142) under fuel: runs selected actions until a stop action ends the FEED. Fuel `|buf| + 1` loses nothing
(R151); what no fuel answers is never used, log 10. -/
def drain : Nat → State → Result
  | 0, s => .next s
  | n + 1, s =>
    match s.feed with
    | none => .next s
    | some f => andThen (runAction (sel (s.bufOf f.ch)) s) (drain n)

/-! ### FEED (R140, R141) -/

/-- `MemWrite(|buf|, 1, b)` for each byte of a chunk, and `U <- []`. -/
def openFeed (ch : Nat) (bs : List Byte) (c : Channel) (s : State) : State :=
  { s with channels := s.channels.set ch { c with buf := c.buf ++ bs }, feed := some ⟨ch, []⟩ }

/-- Append a chunk to channel `ch`, whose state is `c`, and DRAIN: the source's per-chunk algorithm (R140, R152). -/
def feedChunk (ch : Nat) (bs : List Byte) (c : Channel) (s : State) : Result :=
  drain ((c.buf ++ bs).length + 1) (openFeed ch bs c s)

/-- FEED (R140): one byte per chunk. On a full buffer it has no step and the state stays as it is (R141), log 4. -/
def execFeed (ch : BitVec 4) (b : Byte) (s : State) : Result :=
  onChannel ch s fun c =>
    if c.buf.length = s.bufCap then .next s else feedChunk ch.toNat [b] c s

end Sys2Proof.Machine
end

