-- ==== Sys2Proof/Machine/Dispatch.lean ====
section
/-! DEFINITION. One arm per constructor of Instr. -/

namespace Sys2Proof.Machine

def exec (i : Instr) (s : State) : Host.Outcome State Fault Refusal :=
  match i with
  | .feed ch b => Sys2Proof.Machine.execFeed ch b s
  | .encode control address payload => Sys2Proof.Machine.execEncode control address payload s
  | .decode f => Sys2Proof.Machine.execDecode f s
  | .csrRd ch k => Sys2Proof.Machine.execCsrRd ch k s
  | .csrWr ch k v => Sys2Proof.Machine.execCsrWr ch k v s
  | .rIdle => Sys2Proof.Machine.execRIdle s
  | .rWaitHdr => Sys2Proof.Machine.execRWaitHdr s
  | .rResync => Sys2Proof.Machine.execRResync s
  | .rWaitBody => Sys2Proof.Machine.execRWaitBody s
  | .rFrame => Sys2Proof.Machine.execRFrame s
  | .rLine => Sys2Proof.Machine.execRLine s
  | .rWaitLine => Sys2Proof.Machine.execRWaitLine s

end Sys2Proof.Machine
end

