-- ==== Sys2Proof/Machine/Fetch.lean ====
section
/-! DEFINITION. What the next step does: the next action of a running DRAIN, or the host's next event
(spec/20_memory.md R70, spec/30_encoding.md R87; there is no program counter, spec/10_state.md R31). -/

namespace Sys2Proof.Machine

/-- What a step turns out to be. -/
inductive Fetched where
  /-- Run instruction `i` from state `s`. -/
  | run (i : Instr) (s : State)
  /-- No instruction runs; the state becomes `s`. -/
  | done (s : State)
deriving DecidableEq, Repr

/-- Is `i` a FEED the channel does not accept, its buffer holding BUF_CAP bytes (R141)? -/
def notAccepted (i : Instr) (s : State) : Bool :=
  match i with
  | .feed ch _ =>
    match s.channels[ch.toNat]? with
    | some c => decide (c.buf.length = s.bufCap)
    | none => false
  | .encode _ _ _ => false
  | .decode _ => false
  | .csrRd _ _ => false
  | .csrWr _ _ _ => false
  | .rIdle => false
  | .rWaitHdr => false
  | .rResync => false
  | .rWaitBody => false
  | .rFrame => false
  | .rLine => false
  | .rWaitLine => false

/-- A FEED that is not accepted stays the host's next transaction; `i` then leaves the state as it is (R141). The host
may withdraw it (P5), and a reset ends it without performing it (R231). log 4. -/
def heldFeed (i : Instr) (rest : List HostEvent) (s : State) : Fetched :=
  match rest with
  | .withdraw :: rest' => .done { s with pending := rest' }
  | .reset :: rest' => .done ({ s with pending := rest' } : State).resetChannels
  | .issue _ :: _ => .run i s
  | [] => .run i s

/-- The host issues `t`, with `rest` to follow: an illegal transaction raises IllegalOp (R93, R204), a decoded one
runs. -/
def fetchTransaction (t : Transaction) (rest : List HostEvent) (s : State) : Fetched :=
  match decodeHost t with
  | .error _ => .done (({ s with pending := rest } : State).raise .illegalOp)
  | .ok i => if notAccepted i s then heldFeed i rest s else .run i { s with pending := rest }

/-- The next thing that happens. A FEED in progress goes on first: transactions are atomic (R68). With no event from
the host nothing happens; a withdrawal with no FEED outstanding does nothing. -/
def fetch (s : State) : Fetched :=
  match s.feed with
  | some f => .run (sel (s.bufOf f.ch)) s
  | none =>
    match s.pending with
    | [] => .done s
    | .issue t :: rest => fetchTransaction t rest s
    | .withdraw :: rest => .done { s with pending := rest }
    | .reset :: rest => .done ({ s with pending := rest } : State).resetChannels

/-- A channel of index 0 with buffer `buf`, the others unchanged. -/
def State.withHead (s : State) (buf : List Byte) : State :=
  match s.channels[0]? with
  | some c => s.setChannel 0 { c with buf := buf }
  | none => s

end Sys2Proof.Machine
end

