-- ==== Sys2Proof/Machine/Step.lean ====
section
/-! DEFINITION. One step: one host transaction (spec/00_scope.md R7), or one event of the host, or, inside a FEED
whose DRAIN is not finished, one step action. -/

namespace Sys2Proof.Machine

/-- One step of the machine. -/
def step (s : State) : Host.Outcome State Fault Refusal :=
  match fetch s with
  | .run i s' => exec i s'
  | .done s' => .next s'

/-- The opcode-table word `w` of `nbits` bits placed where the next step reads its instruction: a 24-bit pattern as the
buffer of channel 0 with a FEED in progress on it, anything else as the host's next transaction. log 3, log 7. -/
def State.withFetchWord (s : State) (nbits w : Nat) : State :=
  if nbits = headBits then { s.withHead (headOfWord w) with feed := some ⟨0, []⟩ }
  else { s with feed := none, pending := .issue (transactionOfWord nbits w) :: s.pending }

end Sys2Proof.Machine
end

