-- ==== Sys2Proof/Machine/Assembler.lean ====
section
/-! DEFINITION. The assembler of spec/30_encoding.md section 6 (R99 to R101): statements and pseudo-instructions, their
expansion into instructions, and the text form of a line. It stands outside the block; no step reads it. -/

namespace Sys2Proof.Machine

/-! ### Statements (R99, R100) -/

/-- One line's statement. Numbers are as written; `assemble` checks or masks them (R101). -/
inductive Stmt where
  | feed (ch b : Nat)
  | encode (ctl adr : Nat) (bytes : List Nat)
  | decode (bytes : List Nat)
  | csrRd (ch idx : Nat)
  | csrWr (ch idx imm32 : Nat)
  | feeds (ch : Nat) (bytes : List Nat)
  | clear (ch : Nat)
  | rdstat (ch : Nat)
  | rdresync (ch : Nat)
  | encodeDefault (bytes : List Nat)
  | reply (adr : Nat) (bytes : List Nat)
  | sendf (ch ctl adr : Nat) (bytes : List Nat)
deriving DecidableEq, Repr

/-- Why a line is an assembly error. -/
inductive AsmError where
  /-- An operand outside the range R101 gives it, or a SENDF of more than 253 bytes (R100). -/
  | outOfRange
  /-- A text that the grammar of R99 does not produce. -/
  | badLine
deriving DecidableEq, Repr

/-! ### Operand ranges (R101) -/

/-- `n` if it is below `bound`. -/
def inRange (bound n : Nat) : Except AsmError Nat := if n < bound then .ok n else .error .outOfRange

/-- `ch` must be 0..15. -/
def asmCh (n : Nat) : Except AsmError (BitVec 4) := (inRange 16 n).map (BitVec.ofNat 4)

/-- `byte` and `idx` must be 0..255. -/
def asmByte (n : Nat) : Except AsmError Byte := (inRange 256 n).map (BitVec.ofNat 8)

/-- `imm32` must be 0..2^32-1. -/
def asmWord (n : Nat) : Except AsmError Word := (inRange (2 ^ 32) n).map (BitVec.ofNat 32)

/-- `ctl` and `adr` are masked to the low byte. -/
def lowByte (n : Nat) : Byte := BitVec.ofNat 8 n

/-- Each byte of a list must be 0..255; the list holds at most `most` of them. -/
def asmBytes (most : Nat) (bs : List Nat) : Except AsmError (List Byte) :=
  if bs.length ≤ most ∧ ∀ b ∈ bs, b < 256 then .ok (bs.map (BitVec.ofNat 8)) else .error .outOfRange

/-! ### Expansion (R100) -/

/-- `FEEDS ch, bytes`: one FEED a byte, in order. -/
def feedsOf (ch : BitVec 4) (bs : List Byte) : List Instr := bs.map (Instr.feed ch)

/-- A statement's instructions. -/
def assemble : Stmt → Except AsmError (List Instr)
  | .feed ch b => do return [.feed (← asmCh ch) (← asmByte b)]
  | .encode ctl adr bs => do return [.encode (lowByte ctl) (lowByte adr) (← asmBytes Config.ENCODE_MAX bs)]
  | .decode bs => do return [.decode (← asmBytes Config.DECODE_MAX bs)]
  | .csrRd ch idx => do return [.csrRd (← asmCh ch) (← asmByte idx)]
  | .csrWr ch idx v => do return [.csrWr (← asmCh ch) (← asmByte idx) (← asmWord v)]
  | .feeds ch bs => do return feedsOf (← asmCh ch) (← asmBytes bs.length bs)
  | .clear ch => do return [.csrWr (← asmCh ch) 0x00#8 0x00000001#32]
  | .rdstat ch => do return [.csrRd (← asmCh ch) 0x01#8]
  | .rdresync ch => do return [.csrRd (← asmCh ch) 0x02#8]
  | .encodeDefault bs => do
    return [.encode Config.REQ_CONTROL Config.REQ_ADDRESS (← asmBytes Config.ENCODE_MAX bs)]
  | .reply adr bs => do return [.encode Config.RESP_CONTROL (lowByte adr) (← asmBytes Config.ENCODE_MAX bs)]
  | .sendf ch ctl adr bs => do
    return feedsOf (← asmCh ch) (enc (lowByte ctl) (lowByte adr) (← asmBytes Config.MAX_PAYLOAD bs))

/-- The host transaction of an instruction; a step action has none. -/
def transactionOf (i : Instr) : Option Transaction :=
  match encode i with
  | .host t => some t
  | .head _ => none

/-- What the host issues for a list of instructions. -/
def eventsOf (is : List Instr) : List HostEvent := (is.filterMap transactionOf).map HostEvent.issue

/-! ### The text of a line (R99) -/

/-- A token of a line. -/
inductive Token where
  | word (cs : List Char)
  | num (n : Nat)
  | bytes (bs : List Nat)
  | comma
deriving DecidableEq, Repr

/-- The value of a hexadecimal digit. -/
def hexVal (c : Char) : Option Nat :=
  let n := c.toNat
  if 48 ≤ n ∧ n ≤ 57 then some (n - 48)
  else if 65 ≤ n ∧ n ≤ 70 then some (n - 55)
  else if 97 ≤ n ∧ n ≤ 102 then some (n - 87)
  else none

/-- The number that digits in base `base` write, appended to `acc`; none if one is no digit of that base. -/
def digitsVal (base : Nat) : List Char → Nat → Option Nat
  | [], acc => some acc
  | c :: cs, acc =>
    match hexVal c with
    | some d => if d < base then digitsVal base cs (acc * base + d) else none
    | none => none

/-- `number := decimal digits | '0x' hex digits`; any other run of letters, digits and underscores is a word. -/
def wordOrNumber (cs : List Char) : Token :=
  match cs with
  | '0' :: 'x' :: d :: ds =>
    match digitsVal 16 (d :: ds) 0 with
    | some n => .num n
    | none => .word cs
  | _ =>
    match digitsVal 10 cs 0 with
    | some n => .num n
    | none => .word cs

/-- A character of a word or number. -/
def wordChar (c : Char) : Bool := c.isAlphanum || c == '_'

/-- White space between tokens, log 8. -/
def blankChar (c : Char) : Bool := c == ' ' || c == '\t'

/-- `char*` and the closing quote: the characters' ASCII codes and escapes of R99, and the text after the quote. -/
def lexString : List Char → Option (List Nat × List Char)
  | [] => none
  | c :: rest =>
    if c = '"' then some ([], rest)
    else if c = '\\' then
      match rest with
      | 'n' :: r => (lexString r).map fun p => (0x0A :: p.1, p.2)
      | 'r' :: r => (lexString r).map fun p => (0x0D :: p.1, p.2)
      | '\\' :: r => (lexString r).map fun p => (0x5C :: p.1, p.2)
      | '"' :: r => (lexString r).map fun p => (0x22 :: p.1, p.2)
      | 'x' :: a :: b :: r =>
        match digitsVal 16 [a, b] 0 with
        | some n => (lexString r).map fun p => (n :: p.1, p.2)
        | none => none
      | _ => none
    else if 0x20 ≤ c.toNat ∧ c.toNat ≤ 0x7E then (lexString rest).map fun p => (c.toNat :: p.1, p.2)
    else none

/-- `hexbyte* ']'` under fuel: the listed numbers and the text after the bracket. -/
def lexHex : Nat → List Char → Option (List Nat × List Char)
  | 0, _ => none
  | _ + 1, [] => none
  | n + 1, c :: rest =>
    if c = ']' then some ([], rest)
    else if blankChar c then lexHex n rest
    else
      match (c :: rest).takeWhile wordChar with
      | [] => none
      | d :: ds =>
        match digitsVal 16 (d :: ds) 0 with
        | some v => (lexHex n ((c :: rest).dropWhile wordChar)).map fun p => (v :: p.1, p.2)
        | none => none

/-- The tokens of a line under fuel; a `;` outside a string starts a comment. -/
def lexLine : Nat → List Char → Option (List Token)
  | 0, _ => none
  | _ + 1, [] => some []
  | n + 1, c :: rest =>
    if c = ';' then some []
    else if blankChar c then lexLine n rest
    else if c = ',' then (lexLine n rest).map (Token.comma :: ·)
    else if c = '"' then
      match lexString rest with
      | some (bs, r) => (lexLine n r).map (Token.bytes bs :: ·)
      | none => none
    else if c = '[' then
      match lexHex (rest.length + 1) rest with
      | some (bs, r) => (lexLine n r).map (Token.bytes bs :: ·)
      | none => none
    else
      match (c :: rest).takeWhile wordChar with
      | [] => none
      | d :: ds => (lexLine n ((c :: rest).dropWhile wordChar)).map (wordOrNumber (d :: ds) :: ·)

/-- The statement that tokens spell (R99, R100). -/
def parseStmt : List Token → Option Stmt
  | [.word w, .num a] =>
    if w = ['C', 'L', 'E', 'A', 'R'] then some (.clear a)
    else if w = ['R', 'D', 'S', 'T', 'A', 'T'] then some (.rdstat a)
    else if w = ['R', 'D', 'R', 'E', 'S', 'Y', 'N', 'C'] then some (.rdresync a)
    else none
  | [.word w, .bytes bs] =>
    if w = ['D', 'E', 'C', 'O', 'D', 'E'] then some (.decode bs)
    else if w = ['E', 'N', 'C', 'O', 'D', 'E'] then some (.encodeDefault bs)
    else none
  | [.word w, .num a, .comma, .num b] =>
    if w = ['F', 'E', 'E', 'D'] then some (.feed a b)
    else if w = ['C', 'S', 'R', '_', 'R', 'D'] then some (.csrRd a b)
    else none
  | [.word w, .num a, .comma, .bytes bs] =>
    if w = ['F', 'E', 'E', 'D', 'S'] then some (.feeds a bs)
    else if w = ['R', 'E', 'P', 'L', 'Y'] then some (.reply a bs)
    else none
  | [.word w, .num a, .comma, .num b, .comma, .num v] =>
    if w = ['C', 'S', 'R', '_', 'W', 'R'] then some (.csrWr a b v) else none
  | [.word w, .num a, .comma, .num b, .comma, .bytes bs] =>
    if w = ['E', 'N', 'C', 'O', 'D', 'E'] then some (.encode a b bs) else none
  | [.word w, .num a, .comma, .num b, .comma, .num v, .comma, .bytes bs] =>
    if w = ['S', 'E', 'N', 'D', 'F'] then some (.sendf a b v bs) else none
  | _ => none

/-- The instructions of one line of text; an empty line or a comment has none. -/
def assembleLine (line : List Char) : Except AsmError (List Instr) :=
  match lexLine (line.length + 1) line with
  | some [] => .ok []
  | some ts =>
    match parseStmt ts with
    | some st => assemble st
    | none => .error .badLine
  | none => .error .badLine

/-- The instructions of a test program, one line after the other; the first assembly error ends it. -/
def assembleProgram : List (List Char) → Except AsmError (List Instr)
  | [] => .ok []
  | l :: ls => do return (← assembleLine l) ++ (← assembleProgram ls)

/-- A header word written as four hex digits (R99). -/
def headerDigits (h : Header) : List Char :=
  [h.extractLsb' 12 4, h.extractLsb' 8 4, h.extractLsb' 4 4, h.extractLsb' 0 4].map fun (d : BitVec 4) =>
    if d.toNat < 10 then Char.ofNat (48 + d.toNat) else Char.ofNat (55 + d.toNat)

end Sys2Proof.Machine
end

