-- ==== Sys2Proof/Safety.lean ====
section
/-! DEFINITION. The terms the claims use: what holds between transactions, what a legal unit is, the reassembly
algorithm as a relation, the illegal transactions of spec/30_encoding.md R93 read off the header's bits. -/

namespace Sys2Proof.Machine

/-! ### Between transactions -/

/-- The stop actions (spec/41_reassembler.md R142). -/
def stopAction : Instr → Bool
  | .rIdle => true
  | .rWaitHdr => true
  | .rWaitBody => true
  | .rWaitLine => true
  | .rResync => false
  | .rFrame => false
  | .rLine => false
  | .feed _ _ => false
  | .encode _ _ _ => false
  | .decode _ => false
  | .csrRd _ _ => false
  | .csrWr _ _ _ => false

/-- Quiescent: the next step action is a stop action (00_scope.md glossary, R153). -/
def Quiescent (buf : List Byte) : Prop := stopAction (sel buf) = true

/-- What holds of the machine between transactions: the parameters are in range (R12, R13), nothing is in flight (R40),
no buffer is over BUF_CAP (R35), and every buffer is quiescent (R153). -/
structure State.Inv (s : State) : Prop where
  capLow : 261 ≤ s.bufCap
  capHigh : s.bufCap ≤ 65535
  someChannel : 1 ≤ s.channels.length
  atMost16 : s.channels.length ≤ 16
  idle : s.feed = none
  fits : ∀ c ∈ s.channels, c.buf.length ≤ s.bufCap
  quiet : ∀ c ∈ s.channels, Quiescent c.buf

/-- A FEED in progress is on a channel the block has. -/
def State.FeedOnChannel (s : State) : Prop := ∀ f, s.feed = some f → f.ch < s.channels.length

/-! ### Units (R39, R148, R149, R155, R163) -/

/-- A unit the reassembler may emit: a frame with the verdict DEC gives its bytes, a failure only of the four kinds of
R155, a text line with its one NL at the end. -/
def StreamUnit.Legal : StreamUnit → Prop
  | .frameOk control address payload raw => dec raw = .ok ⟨control, address, payload⟩
  | .frameErr kind raw => dec raw = .error kind ∧
      (kind = .badStart ∨ (kind = .sizeMismatch ∧ (byteAt raw 1).toNat < 2) ∨ kind = .checksumMismatch ∨ kind = .badEnd)
  | .text raw => raw.head? ≠ some Config.START ∧ ∃ t, raw = t ++ [Config.NL] ∧ Config.NL ∉ t

/-- Every unit in UNITS of every channel is legal. -/
def State.UnitsLegal (s : State) : Prop := ∀ c ∈ s.channels, ∀ u ∈ c.units, u.Legal

/-! ### The reassembly algorithm as a relation -/

/-- `DrainRun c us c'`: DRAIN (R142) takes the channel from `c` to `c'` and emits `us`. No fuel. -/
inductive DrainRun : Channel → List StreamUnit → Channel → Prop where
  /-- R144, R145, R147, R150. -/
  | stop (c : Channel) (h : stopAction (sel c.buf) = true) : DrainRun c [] c
  /-- R146. -/
  | resync (c c' : Channel) (us : List StreamUnit) (h : sel c.buf = .rResync)
      (rest : DrainRun ⟨c.buf.drop 1, c.resyncCnt + 1#32, c.units⟩ us c') : DrainRun c us c'
  /-- R148, the frame decodes. -/
  | frameOk (c c' : Channel) (us : List StreamUnit) (d : Frame) (h : sel c.buf = .rFrame)
      (hd : dec (c.buf.take (frameLen (byteAt c.buf 1))) = .ok d)
      (rest : DrainRun ⟨c.buf.drop (frameLen (byteAt c.buf 1)), c.resyncCnt, c.units ++
        [.frameOk d.control d.address d.payload (c.buf.take (frameLen (byteAt c.buf 1)))]⟩ us c') :
      DrainRun c (.frameOk d.control d.address d.payload (c.buf.take (frameLen (byteAt c.buf 1))) :: us) c'
  /-- R148, the frame fails. -/
  | frameErr (c c' : Channel) (us : List StreamUnit) (k : DecodeError) (h : sel c.buf = .rFrame)
      (hd : dec (c.buf.take (frameLen (byteAt c.buf 1))) = .error k)
      (rest : DrainRun ⟨c.buf.drop (frameLen (byteAt c.buf 1)), c.resyncCnt, c.units ++
        [.frameErr k (c.buf.take (frameLen (byteAt c.buf 1)))]⟩ us c') :
      DrainRun c (.frameErr k (c.buf.take (frameLen (byteAt c.buf 1))) :: us) c'
  /-- R149. -/
  | line (c c' : Channel) (us : List StreamUnit) (t rest : List Byte) (h : sel c.buf = .rLine)
      (hb : c.buf = t ++ Config.NL :: rest) (ht : Config.NL ∉ t)
      (go : DrainRun ⟨rest, c.resyncCnt, c.units ++ [.text (t ++ [Config.NL])]⟩ us c') :
      DrainRun c (.text (t ++ [Config.NL]) :: us) c'

/-- What a progress action removed from the buffer: the START a resync drops, or a unit (R154). -/
inductive Piece where
  | dropped
  | emitted (u : StreamUnit)
deriving DecidableEq, Repr

/-- The bytes of a piece. -/
def Piece.bytes : Piece → List Byte
  | .dropped => [0x68#8]
  | .emitted u => u.raw

/-- The units among pieces. -/
def unitsOf (ps : List Piece) : List StreamUnit :=
  ps.filterMap fun p => match p with
    | .dropped => none
    | .emitted u => some u

/-- How many resync drops are among pieces. -/
def dropsOf (ps : List Piece) : Nat := ps.countP (· = .dropped)

/-! ### Sequences of FEEDs -/

/-- FEED the bytes one by one to channel `ch`; `none` as soon as one is not accepted (R141). -/
def feedAll (ch : BitVec 4) : List Byte → State → Option State
  | [], s => some s
  | b :: bs, s =>
    match s.channels[ch.toNat]? with
    | none => none
    | some c =>
      if c.buf.length = s.bufCap then none
      else match exec (.feed ch b) s with
        | .next s' => feedAll ch bs s'
        | .fault _ => none
        | .refused _ => none

/-- The source's algorithm: append each chunk as a whole to channel `ch` and DRAIN after each (R152). -/
def chunkAll (ch : Nat) : List (List Byte) → State → Option State
  | [], s => some s
  | bs :: rest, s =>
    match s.channels[ch]? with
    | none => none
    | some c =>
      match feedChunk ch bs c s with
      | .next s' => chunkAll ch rest s'
      | .fault _ => none
      | .refused _ => none

/-! ### What an instruction may touch -/

/-- The channel an instruction acts on in state `s`: the one it names, or that of the FEED in progress. -/
def actsOn : Instr → State → Option Nat
  | .feed ch _, _ => some ch.toNat
  | .csrRd ch _, _ => some ch.toNat
  | .csrWr ch _ _, _ => some ch.toNat
  | .encode _ _ _, _ => none
  | .decode _, _ => none
  | .rIdle, s => s.feed.map FeedInProgress.ch
  | .rWaitHdr, s => s.feed.map FeedInProgress.ch
  | .rResync, s => s.feed.map FeedInProgress.ch
  | .rWaitBody, s => s.feed.map FeedInProgress.ch
  | .rFrame, s => s.feed.map FeedInProgress.ch
  | .rLine, s => s.feed.map FeedInProgress.ch
  | .rWaitLine, s => s.feed.map FeedInProgress.ch

/-! ### Illegal transactions (R93), from the header as a number -/

/-- The five conditions of R93, in its order, for a block of `n` channels. -/
def IllegalTransaction (n : Nat) (t : Transaction) : Prop :=
  let op := t.header.toNat / 4096
  let ch := t.header.toNat / 256 % 16
  let imm := t.header.toNat % 256
  (op = 0 ∨ 6 ≤ op) ∨
  (op = 2 ∧ ch ≠ 0) ∨
  ((op = 1 ∨ op = 4 ∨ op = 5) ∧ n ≤ ch) ∨
  (((op = 1 ∨ op = 4) ∧ t.ops.length ≠ 0) ∨ (op = 2 ∧ t.ops.length ≠ imm + 2) ∨
    (op = 3 ∧ t.ops.length ≠ t.header.toNat % 4096) ∨ (op = 5 ∧ t.ops.length ≠ 4)) ∨
  ((op = 4 ∨ op = 5) ∧ 4 ≤ imm)

/-! ### The pattern table (R96) -/

/-- The row of R96 for a step action, as the table has it: `N` the length, `F` NL occurring, and the head bytes. -/
def HeadRow : Instr → List Byte → Prop
  | .rIdle, buf => buf.length = 0
  | .rWaitHdr, buf => buf[0]? = some 0x68#8 ∧ 1 ≤ buf.length ∧ buf.length < 6
  | .rResync, buf => buf[0]? = some 0x68#8 ∧ 6 ≤ buf.length ∧ ∃ l m, buf[1]? = some l ∧ buf[2]? = some m ∧ l ≠ m
  | .rWaitBody, buf => buf[0]? = some 0x68#8 ∧ 6 ≤ buf.length ∧
      ∃ l, buf[1]? = some l ∧ buf[2]? = some l ∧ buf.length < l.toNat + 6
  | .rFrame, buf => buf[0]? = some 0x68#8 ∧ 6 ≤ buf.length ∧
      ∃ l, buf[1]? = some l ∧ buf[2]? = some l ∧ l.toNat + 6 ≤ buf.length
  | .rLine, buf => 1 ≤ buf.length ∧ buf[0]? ≠ some 0x68#8 ∧ 0x0A#8 ∈ buf
  | .rWaitLine, buf => 1 ≤ buf.length ∧ buf[0]? ≠ some 0x68#8 ∧ 0x0A#8 ∉ buf
  | .feed _ _, _ => False
  | .encode _ _ _, _ => False
  | .decode _, _ => False
  | .csrRd _ _, _ => False
  | .csrWr _ _ _, _ => False

end Sys2Proof.Machine
end

