-- ==== Sys2Proof/Certificates/Slice0/Obligations.lean ====
section
/-! DEFINITION. The statements for the provers. Each docstring names the rules it formalises, and the log entry where a
clause is the model's own. -/

namespace Sys2Proof.Claims

open Sys2Proof.Machine

/-- `s` with one more response and nothing else changed: the whole effect of a transaction that only answers. -/
def answered (s : State) (st : Status) (d : Data) : State :=
  { s with responses := s.responses ++ [⟨st, d⟩] }

/-- `s` after FEED on channel `ch` left it at `c'` and answered OK with the units `us` as records. -/
def fed (s : State) (ch : Nat) (c' : Channel) (us : List StreamUnit) : State :=
  { s with channels := s.channels.set ch c', feed := none,
           responses := s.responses ++ [⟨.ok, .records (us.map StreamUnit.record)⟩] }

/-- `s` after a progress action of the FEED in progress `f` left its channel at `c'` and emitted `us`. -/
def progressed (s : State) (f : FeedInProgress) (c' : Channel) (us : List StreamUnit) : State :=
  { s with channels := s.channels.set f.ch c', feed := some ⟨f.ch, f.units ++ us⟩ }

/-- The four shapes of R159. -/
def QuiescentShape (buf : List Byte) : Prop :=
  buf = [] ∨
  (buf[0]? = some 0x68#8 ∧ buf.length < 6) ∨
  (buf[0]? = some 0x68#8 ∧ ∃ l, buf[1]? = some l ∧ buf[2]? = some l ∧ buf.length < l.toNat + 6) ∨
  (∃ h, buf[0]? = some h ∧ h ≠ 0x68#8 ∧ 0x0A#8 ∉ buf)

end Sys2Proof.Claims

open Sys2Proof Sys2Proof.Machine Sys2Proof.Claims

/-! ### Encoding -/

/-- R88 to R92, R96: an instruction is read back from its encoding, every operand at every value. -/
def Obligations.DecodeInvertsEncode : Prop :=
  ∀ i : Instr, i.wf = true → decode (encode i) = .ok i

/-- R88 to R92: an accepted transaction is well-formed and is the encoding of what it decodes to; no bit is dropped. -/
def Obligations.AcceptedTransactionIsItsEncoding : Prop :=
  ∀ (t : Transaction) (i : Instr), decodeHost t = .ok i → i.wf = true ∧ encode i = .host t

/-- R96: `sel` answers a step action exactly where that action's row of the table matches, and exactly one row matches
each buffer. -/
def Obligations.SelFollowsThePatternTable : Prop :=
  (∀ (buf : List Byte) (i : Instr), sel buf = i ↔ HeadRow i buf) ∧
  ∀ buf : List Byte, ∃ i, HeadRow i buf ∧ ∀ j, HeadRow j buf → j = i

/-- R88 to R92, R143: words and buffers written out from the spec decode to the instructions they stand for. -/
def Obligations.SpecWordsDecode : Prop :=
  decode (.host ⟨0x1F68#16, []⟩) = .ok (.feed 15#4 0x68#8) ∧
  decode (.host ⟨0x2001#16, [0x53#8, 0x01#8, 0x41#8]⟩) = .ok (.encode 0x53#8 0x01#8 [0x41#8]) ∧
  decode (.host ⟨0x3002#16, [0x68#8, 0x09#8]⟩) = .ok (.decode [0x68#8, 0x09#8]) ∧
  decode (.host ⟨0x4103#16, []⟩) = .ok (.csrRd 1#4 0x03#8) ∧
  decode (.host ⟨0x5000#16, [0xFE#8, 0xFF#8, 0x00#8, 0x80#8]⟩) = .ok (.csrWr 0#4 0x00#8 0x8000FFFE#32) ∧
  decode (.head [0x68#8, 0x05#8, 0x09#8, 0x41#8, 0x0A#8, 0x42#8]) = .ok .rResync ∧
  decode (.head [0x68#8, 0x09#8, 0x09#8, 0x68#8, 0x53#8]) = .ok .rWaitHdr ∧
  decode (.head [0x0D#8, 0x0A#8]) = .ok .rLine

/-- R93, R204: a transaction meeting one of the five conditions answers IllegalOp and has no other effect; one that
meets none of them never answers IllegalOp. -/
def Obligations.IllegalTransactionsAnswerIllegalOp : Prop :=
  ∀ (s : State) (t : Transaction) (rest : List HostEvent),
    s.feed = none → s.pending = .issue t :: rest →
    (IllegalTransaction s.channels.length t →
      step s = .next (answered { s with pending := rest } .illegalOp .none)) ∧
    (¬ IllegalTransaction s.channels.length t →
      ∀ s' r, step s = .next s' → s'.responses = s.responses ++ [r] → r.status ≠ .illegalOp)

/-- R65: the four operand bytes of a CSR_WR give the value least significant byte first. -/
def Obligations.CsrWrOperandIsLittleEndian : Prop :=
  ∀ (h : Header) (o0 o1 o2 o3 : Byte), h.toNat / 4096 = 5 →
    ∃ (ch : BitVec 4) (k : Byte) (v : Word), decode (.host ⟨h, [o0, o1, o2, o3]⟩) = .ok (.csrWr ch k v) ∧
      ch.toNat = h.toNat / 256 % 16 ∧ k.toNat = h.toNat % 256 ∧
      v.toNat = o0.toNat + 2 ^ 8 * o1.toNat + 2 ^ 16 * o2.toNat + 2 ^ 24 * o3.toNat

/-! ### The step -/

/-- R70, R87, R142: a step runs the instruction decoded from the host's next transaction, which leaves the queue
(unless it is a FEED on a full buffer, log 4), or, in the model's view inside a FEED (log 9), the step action selected by
the buffer of the FEED in progress. -/
def Obligations.StepRunsTheDecodedInstruction : Prop :=
  (∀ (s : State) (t : Transaction) (rest : List HostEvent) (i : Instr),
    s.feed = none → s.pending = .issue t :: rest → decode (.host t) = .ok i → i.wf = true → notAccepted i s = false →
      step s = exec i { s with pending := rest }) ∧
  (∀ (s : State) (f : FeedInProgress) (c : Channel),
    s.feed = some f → s.channels[f.ch]? = some c → ∃ i, decode (.head c.buf) = .ok i ∧ step s = exec i s)

/-- R206: no error stops the block; from every state between transactions, and inside a FEED, a step answers a next
state of the same kind. -/
def Obligations.StepNeverStops : Prop :=
  ∀ s : State, s.FeedOnChannel → ∃ s' : State, step s = .next s' ∧ s'.FeedOnChannel

/-- R141, log 4 (the model's way to be stuck: the state stays as it is): a FEED on a full buffer consumes no byte,
answers nothing and changes no state; as the host's next transaction it stays pending. -/
def Obligations.FeedOnFullBufferIsNotAccepted : Prop :=
  ∀ (s : State) (ch : BitVec 4) (b : Byte) (c : Channel),
    s.channels[ch.toNat]? = some c → c.buf.length = s.bufCap →
    exec (.feed ch b) s = .next s ∧
    (∀ t, s.feed = none → decode (.host t) = .ok (.feed ch b) →
      (s.pending = [.issue t] → step s = .next s) ∧
      (∀ u rest, s.pending = .issue t :: .issue u :: rest → step s = .next s))

/-- R231, P5, log 4: a reset while a FEED is refused resets the channels and does not perform the FEED; a withdrawn one
leaves no trace. -/
def Obligations.RefusedFeedIsNotPerformed : Prop :=
  ∀ (s : State) (t : Transaction) (ch : BitVec 4) (b : Byte) (c : Channel) (rest : List HostEvent),
    s.feed = none → decode (.host t) = .ok (.feed ch b) →
    s.channels[ch.toNat]? = some c → c.buf.length = s.bufCap →
    (s.pending = .issue t :: .reset :: rest →
      ∃ s' : State, step s = .next s' ∧ s'.pending = rest ∧ s'.responses = s.responses ∧
        ∀ (n : Nat) (d : Channel), s.channels[n]? = some d → s'.channels[n]? = some ⟨[], 0#32, d.units⟩) ∧
    (s.pending = .issue t :: .withdraw :: rest → step s = .next { s with pending := rest })

/-! ### The codec -/

/-- R110: the checksum is the exact unsigned sum of the bytes, reduced modulo 256. -/
def Obligations.ChecksumIsSumModulo256 : Prop :=
  ∀ s : List Byte, (cksum s).toNat = (s.map BitVec.toNat).sum % 256

/-- R114, R111: ENCODE of at most 253 bytes answers OK with the frame of R80, `n + 8` bytes, and nothing else
changes. -/
def Obligations.EncodeAnswersTheFrame : Prop :=
  ∀ (s : State) (control address : Byte) (payload : List Byte), payload.length ≤ 253 →
    ∃ frame : List Byte,
      exec (.encode control address payload) s = .next (answered s .ok (.bytes frame)) ∧
      frame.length = payload.length + 8 ∧
      frame = [0x68#8, BitVec.ofNat 8 (payload.length + 2), BitVec.ofNat 8 (payload.length + 2), 0x68#8, control, address]
        ++ payload ++ [BitVec.ofNat 8 (control.toNat + address.toNat + (payload.map BitVec.toNat).sum), 0x16#8]

/-- R113: ENCODE of more than 253 bytes answers EncodeTooLong with no data, and nothing else changes. -/
def Obligations.EncodeTooLongAnswersNoBytes : Prop :=
  ∀ (s : State) (control address : Byte) (payload : List Byte), 253 < payload.length →
    exec (.encode control address payload) s = .next (answered s .encodeTooLong .none)

/-- R117 to R124, R126: DECODE answers the lowest-numbered failing check, with no data, or the fields of the frame, and
nothing else changes. -/
def Obligations.DecodeAnswersTheFirstFailingCheck : Prop :=
  ∀ (s : State) (f : List Byte),
    (f.length < 6 → exec (.decode f) s = .next (answered s (.decodeError .tooShort) .none)) ∧
    (6 ≤ f.length → (f[0]? ≠ some 0x68#8 ∨ f[3]? ≠ some 0x68#8) →
      exec (.decode f) s = .next (answered s (.decodeError .badStart) .none)) ∧
    (6 ≤ f.length → f[0]? = some 0x68#8 → f[3]? = some 0x68#8 →
      (f[1]? ≠ f[2]? → exec (.decode f) s = .next (answered s (.decodeError .lengthMismatch) .none)) ∧
      ∀ l, f[1]? = some l → f[2]? = some l →
        (f.length ≠ l.toNat + 6 ∨ l.toNat < 2 →
          exec (.decode f) s = .next (answered s (.decodeError .sizeMismatch) .none)) ∧
        ∀ control address payload k e,
          f = [0x68#8, l, l, 0x68#8, control, address] ++ payload ++ [k, e] → payload.length + 2 = l.toNat →
          (k.toNat ≠ (control.toNat + address.toNat + (payload.map BitVec.toNat).sum) % 256 →
            exec (.decode f) s = .next (answered s (.decodeError .checksumMismatch) .none)) ∧
          (k.toNat = (control.toNat + address.toNat + (payload.map BitVec.toNat).sum) % 256 →
            (e ≠ 0x16#8 → exec (.decode f) s = .next (answered s (.decodeError .badEnd) .none)) ∧
            (e = 0x16#8 → exec (.decode f) s = .next (answered s .ok (.fields ⟨control, address, payload⟩)))))

/-- R115: decoding an encoded frame gives the inputs back. -/
def Obligations.DecodeOfEncodeIsTheInputs : Prop :=
  ∀ (control address : Byte) (payload : List Byte), payload.length ≤ 253 →
    dec (enc control address payload) = .ok ⟨control, address, payload⟩

/-- R127: a sequence that decodes is exactly what the encoder builds from its fields. -/
def Obligations.EncodeOfDecodeIsTheFrame : Prop :=
  ∀ (f : List Byte) (control address : Byte) (payload : List Byte),
    dec f = .ok ⟨control, address, payload⟩ → enc control address payload = f

/-- R128: the verdict on a valid frame with one byte changed, by the place of the byte, and with one byte added or
removed at the end. -/
def Obligations.SingleByteCorruptionIsDetected : Prop :=
  ∀ (f : List Byte) (d : Frame) (l : Byte), dec f = .ok d → f[1]? = some l →
    (∀ (i : Nat) (b : Byte), i < f.length → f[i]? ≠ some b →
      (i = 0 ∨ i = 3 → dec (f.set i b) = .error .badStart) ∧
      (i = 1 ∨ i = 2 → dec (f.set i b) = .error .lengthMismatch) ∧
      (4 ≤ i ∧ i ≤ 4 + l.toNat → dec (f.set i b) = .error .checksumMismatch) ∧
      (i = 5 + l.toNat → dec (f.set i b) = .error .badEnd)) ∧
    dec f.dropLast = .error .sizeMismatch ∧
    ∀ b, dec (f ++ [b]) = .error .sizeMismatch

/-- R90, R118 to R120: an input longer than 261 bytes fails with BadStart, LengthMismatch or SizeMismatch. -/
def Obligations.LongInputsNeverDecode : Prop :=
  ∀ f : List Byte, 261 < f.length →
    dec f = .error .badStart ∨ dec f = .error .lengthMismatch ∨ dec f = .error .sizeMismatch

/-! ### The step actions -/

/-- R142, R144, R145, R147, R150: a stop action leaves every channel as it is. It ends the FEED in progress, which then
answers OK with its units; that the stop action gives this answer is the model's choice, log 9. HEAD_STATE reads the
action's code. -/
def Obligations.StopActionsEndTheFeed : Prop :=
  ∀ (s : State) (f : FeedInProgress) (c : Channel), s.feed = some f → s.channels[f.ch]? = some c →
    (c.buf.length = 0 → exec .rIdle s = .next (fed s f.ch c f.units) ∧ headState c.buf = 0#2) ∧
    (c.buf[0]? = some 0x68#8 → c.buf.length < 6 →
      exec .rWaitHdr s = .next (fed s f.ch c f.units) ∧ headState c.buf = 1#2) ∧
    (∀ l, c.buf[0]? = some 0x68#8 → 6 ≤ c.buf.length → c.buf[1]? = some l → c.buf[2]? = some l →
      c.buf.length < l.toNat + 6 → exec .rWaitBody s = .next (fed s f.ch c f.units) ∧ headState c.buf = 2#2) ∧
    (∀ h, c.buf[0]? = some h → h ≠ 0x68#8 → 0x0A#8 ∉ c.buf →
      exec .rWaitLine s = .next (fed s f.ch c f.units) ∧ headState c.buf = 3#2)

/-- R146, R158: R_RESYNC drops one byte, always 0x68, counts it modulo 2^32, emits nothing. -/
def Obligations.ResyncDropsOneStart : Prop :=
  ∀ (s : State) (f : FeedInProgress) (c : Channel) (l m : Byte) (tail : List Byte),
    s.feed = some f → s.channels[f.ch]? = some c →
    c.buf = 0x68#8 :: l :: m :: tail → l ≠ m → 3 ≤ tail.length →
    ∃ n : Word, n.toNat = (c.resyncCnt.toNat + 1) % 2 ^ 32 ∧
      exec .rResync s = .next (progressed s f ⟨l :: m :: tail, n, c.units⟩ [])

/-- R148: R_FRAME extracts exactly the first `L + 6` bytes and emits their verdict as one unit. -/
def Obligations.FrameActionEmitsTheVerdict : Prop :=
  ∀ (s : State) (f : FeedInProgress) (c : Channel) (l : Byte) (raw rest : List Byte),
    s.feed = some f → s.channels[f.ch]? = some c →
    c.buf = raw ++ rest → raw[0]? = some 0x68#8 → raw[1]? = some l → raw[2]? = some l → raw.length = l.toNat + 6 →
    (∀ control address payload, dec raw = .ok ⟨control, address, payload⟩ →
      exec .rFrame s = .next (progressed s f ⟨rest, c.resyncCnt, c.units ++ [.frameOk control address payload raw]⟩
        [.frameOk control address payload raw])) ∧
    (∀ k, dec raw = .error k →
      exec .rFrame s = .next (progressed s f ⟨rest, c.resyncCnt, c.units ++ [.frameErr k raw]⟩ [.frameErr k raw]) ∧
      (l.toNat < 2 → k = .sizeMismatch ∨ k = .badStart))

/-- R149: R_LINE emits the bytes up to and including the first NL. -/
def Obligations.LineActionEmitsTheLine : Prop :=
  ∀ (s : State) (f : FeedInProgress) (c : Channel) (t rest : List Byte),
    s.feed = some f → s.channels[f.ch]? = some c →
    c.buf = t ++ [0x0A#8] ++ rest → 0x0A#8 ∉ t → c.buf[0]? ≠ some 0x68#8 →
    exec .rLine s = .next (progressed s f ⟨rest, c.resyncCnt, c.units ++ [.text (t ++ [0x0A#8])]⟩
      [.text (t ++ [0x0A#8])])

/-- R142, R143, log 5 (the fault is the model's own): a step action that is not the selected one, or with no FEED in
progress, stops with the fault stepNotSelected. -/
def Obligations.UnselectedStepActionsStop : Prop :=
  ∀ (s : State) (i : Instr), (i = .rIdle ∨ i = .rWaitHdr ∨ i = .rResync ∨ i = .rWaitBody ∨ i = .rFrame ∨ i = .rLine ∨
      i = .rWaitLine) →
    (s.feed = none → exec i s = .fault .stepNotSelected) ∧
    ∀ f c, s.feed = some f → s.channels[f.ch]? = some c → ¬ HeadRow i c.buf → exec i s = .fault .stepNotSelected

/-! ### FEED -/

/-- R140, R142: an accepted FEED appends its byte and runs DRAIN to a stop action; it answers OK with the units emitted,
which are also appended to UNITS, and nothing else changes. -/
def Obligations.FeedAppendsAndDrains : Prop :=
  ∀ (s : State) (ch : BitVec 4) (b : Byte) (c : Channel),
    s.channels[ch.toNat]? = some c → c.buf.length ≠ s.bufCap →
    ∃ us c', DrainRun ⟨c.buf ++ [b], c.resyncCnt, c.units⟩ us c' ∧ c'.units = c.units ++ us ∧
      exec (.feed ch b) s = .next (fed s ch.toNat c' us)

/-- R97, R142: DRAIN has one result. -/
def Obligations.DrainHasOneResult : Prop :=
  ∀ (c c1 c2 : Channel) (us1 us2 : List StreamUnit), DrainRun c us1 c1 → DrainRun c us2 c2 → us1 = us2 ∧ c1 = c2

/-- R151: fuel `|buf| + 1` ends every DRAIN, and more fuel changes nothing. That the FEED is then no longer in progress is
the stop action's doing in the model's view, log 9. -/
def Obligations.DrainTerminatesWithinItsFuel : Prop :=
  ∀ (s : State) (f : FeedInProgress) (c : Channel) (n : Nat),
    s.feed = some f → s.channels[f.ch]? = some c → c.buf.length + 1 ≤ n →
    ∃ s', drain (c.buf.length + 1) s = .next s' ∧ s'.feed = none ∧ drain n s = .next s'

/-- R153, R159: after every accepted FEED the channel is quiescent, and its buffer has one of the four shapes. -/
def Obligations.FeedLeavesTheChannelQuiescent : Prop :=
  ∀ (s t : State) (ch : BitVec 4) (b : Byte) (c : Channel),
    s.channels[ch.toNat]? = some c → c.buf.length ≠ s.bufCap → exec (.feed ch b) s = .next t →
    ∃ c', t.channels[ch.toNat]? = some c' ∧ stopAction (sel c'.buf) = true ∧ QuiescentShape c'.buf

/-- R68, R140, R142, R151, in the model's view inside a FEED (log 9: a FEED in progress is a field of State, a step then
runs one action, and the stop action gives the FEED's answer): from the state with the byte appended and the FEED in
progress, at most `|buf| + 1` steps, `|buf|` measured after the append (`c.buf.length + 2` by the buffer before it), reach
the state that the atomic FEED answers. -/
def Obligations.FeedIsItsStepActionsOneByOne : Prop :=
  ∀ (s : State) (ch : BitVec 4) (b : Byte) (c : Channel),
    s.channels[ch.toNat]? = some c → c.buf.length ≠ s.bufCap →
    ∃ k, 1 ≤ k ∧ k ≤ c.buf.length + 2 ∧
      Host.Core.run Sys2Proof.core k
        { s with channels := s.channels.set ch.toNat ⟨c.buf ++ [b], c.resyncCnt, c.units⟩,
                 feed := some ⟨ch.toNat, []⟩ } = exec (.feed ch b) s

/-- R154, R156: conservation over any sequence of accepted FEEDs: the bytes held before and fed are, in order, the pieces
removed (resync drops of 0x68 and the units' raw bytes) and the buffer left; each piece is one unit emitted or one drop
counted. -/
def Obligations.FedBytesAreConserved : Prop :=
  ∀ (s t : State) (ch : BitVec 4) (bs : List Byte) (c : Channel),
    s.channels[ch.toNat]? = some c → feedAll ch bs s = some t →
    ∃ ps c', t.channels[ch.toNat]? = some c' ∧
      c.buf ++ bs = ps.flatMap Piece.bytes ++ c'.buf ∧
      c'.units = c.units ++ unitsOf ps ∧
      c'.resyncCnt = c.resyncCnt + BitVec.ofNat 32 (dropsOf ps)

/-- R152: on a quiescent channel, feeding bytes one at a time leaves every channel as the source's algorithm does on any
partition of the bytes into chunks: the same units in the same order, the same buffer, the same RESYNC_CNT. -/
def Obligations.ChunkingChangesNothing : Prop :=
  ∀ (s t : State) (ch : BitVec 4) (chunks : List (List Byte)) (c : Channel),
    s.channels[ch.toNat]? = some c → stopAction (sel c.buf) = true →
    feedAll ch chunks.flatten s = some t →
    ∃ t', chunkAll ch.toNat chunks s = some t' ∧ t'.channels = t.channels

/-- R111, R115, R148: a frame that ENCODE builds, fed byte by byte to an empty channel, comes out as exactly one FrameOk
with its inputs; no resync, and the channel is empty again. -/
def Obligations.EncodedFrameIsReassembled : Prop :=
  ∀ (s : State) (ch : BitVec 4) (c : Channel) (control address : Byte) (payload : List Byte),
    s.channels[ch.toNat]? = some c → c.buf = [] → 261 ≤ s.bufCap → payload.length ≤ 253 →
    ∃ t, feedAll ch (enc control address payload) s = some t ∧
      t.channels = s.channels.set ch.toNat ⟨[], c.resyncCnt,
        c.units ++ [.frameOk control address payload (enc control address payload)]⟩

/-- R149, R150, R236: a buffer with another head than START and no NL absorbs every byte until NL, which emits all of it
as one text line. -/
def Obligations.TextAbsorbsUntilNewline : Prop :=
  ∀ (s : State) (ch : BitVec 4) (b h : Byte) (c : Channel),
    s.channels[ch.toNat]? = some c → c.buf.length ≠ s.bufCap →
    c.buf[0]? = some h → h ≠ 0x68#8 → 0x0A#8 ∉ c.buf →
    (b ≠ 0x0A#8 → exec (.feed ch b) s = .next (fed s ch.toNat ⟨c.buf ++ [b], c.resyncCnt, c.units⟩ [])) ∧
    (b = 0x0A#8 → exec (.feed ch b) s = .next (fed s ch.toNat
      ⟨[], c.resyncCnt, c.units ++ [.text (c.buf ++ [0x0A#8])]⟩ [.text (c.buf ++ [0x0A#8])]))

/-- R145, R238: a START-headed buffer of fewer than 5 bytes takes any byte and waits on, NL included. -/
def Obligations.ShortStartBufferWaits : Prop :=
  ∀ (s : State) (ch : BitVec 4) (b : Byte) (c : Channel),
    s.channels[ch.toNat]? = some c → c.buf.length ≠ s.bufCap →
    c.buf[0]? = some 0x68#8 → c.buf.length < 5 →
    exec (.feed ch b) s = .next (fed s ch.toNat ⟨c.buf ++ [b], c.resyncCnt, c.units⟩ [])

/-- R160: a full quiescent buffer is in WAIT_LINE, and a START-headed quiescent one holds at most 260 bytes. -/
def Obligations.OnlyTextFillsABuffer : Prop :=
  ∀ buf : List Byte, stopAction (sel buf) = true →
    (buf[0]? = some 0x68#8 → buf.length ≤ 260) ∧
    ∀ bufCap, 261 ≤ bufCap → buf.length = bufCap → headState buf = 3#2

/-- R142, R151: a run of DRAIN emits at most as many units as the buffer it starts from has bytes. That is R164's bound at
DRAIN; FeedAnswersAtMostItsBuffer states it of FEED. -/
def Obligations.DrainEmitsAtMostItsBuffer : Prop :=
  ∀ (c c' : Channel) (us : List StreamUnit), DrainRun c us c' → us.length ≤ c.buf.length

/-! ### Invariants -/

/-- R40, R49 (State.reset's parameters are log 1): the state after reset meets the invariant between transactions, and
no channel has a unit yet. -/
def Obligations.ResetMeetsTheInvariant : Prop :=
  State.reset.Inv ∧ ∀ c ∈ State.reset.channels, c = ⟨[], 0#32, []⟩

/-- R35, R40, R153: every step keeps the invariant between transactions: nothing in flight, no buffer over BUF_CAP, every
buffer quiescent, parameters in range. -/
def Obligations.StepKeepsTheInvariant : Prop :=
  ∀ s s' : State, s.Inv → step s = .next s' → s'.Inv

/-- R155, R163: every step, inside a FEED too, keeps every unit of UNITS legal; a FrameErr has one of four kinds,
SizeMismatch only with `L < 2`. -/
def Obligations.EmittedUnitsAreLegal : Prop :=
  ∀ s s' : State, s.UnitsLegal → step s = .next s' → s'.UnitsLegal

/-- R39, R94, R182, R230: UNITS and the responses only grow at their end, whatever the step is, CLEAR and reset
included. -/
def Obligations.UnitsAreAppendOnly : Prop :=
  ∀ s s' : State, step s = .next s' →
    s.responses <+: s'.responses ∧
    ∀ (n : Nat) (c : Channel), s.channels[n]? = some c → ∃ c', s'.channels[n]? = some c' ∧ c.units <+: c'.units

/-- R7, R12, R13, R207: whatever the instruction, BUF_CAP, N_CHANNELS and the host's queue stay, and at most one response
is given. -/
def Obligations.ExecKeepsParametersAndQueue : Prop :=
  ∀ (i : Instr) (s t : State), exec i s = .next t →
    t.bufCap = s.bufCap ∧ t.channels.length = s.channels.length ∧ t.pending = s.pending ∧
    (t.responses = s.responses ∨ ∃ r, t.responses = s.responses ++ [r])

/-- R201, R204, R206, R209, R212: an instruction that answers an error status changes nothing but the list of responses, and
the error carries no data. -/
def Obligations.ErrorsHaveNoOtherEffect : Prop :=
  ∀ (i : Instr) (s t : State) (r : Response), exec i s = .next t → t.responses = s.responses ++ [r] → r.status ≠ .ok →
    r.data = .none ∧ t = answered s r.status .none

/-! ### Channels -/

/-- R33, R51: an instruction leaves every channel but the one it acts on as it was. -/
def Obligations.OtherChannelsAreUntouched : Prop :=
  ∀ (i : Instr) (s t : State) (n : Nat), exec i s = .next t → actsOn i s ≠ some n → t.channels[n]? = s.channels[n]?

/-- R51: two states that agree on BUF_CAP, N_CHANNELS, the FEED in progress and channel `n` give the same new channel `n`
and the same answer to an instruction that acts on it, whatever the other channels hold. -/
def Obligations.OtherChannelsAreNotRead : Prop :=
  ∀ (i : Instr) (s1 s2 t1 : State) (n : Nat),
    s1.bufCap = s2.bufCap → s1.channels.length = s2.channels.length → s1.feed = s2.feed →
    s1.channels[n]? = s2.channels[n]? → actsOn i s1 = some n → exec i s1 = .next t1 →
    ∃ t2, exec i s2 = .next t2 ∧ t1.channels[n]? = t2.channels[n]? ∧ t1.feed = t2.feed ∧
      t1.responses.drop s1.responses.length = t2.responses.drop s2.responses.length

/-- R34, R37: RESYNC_CNT of a channel changes only in a FEED to it, in R_RESYNC and in a CLEAR of it; `buf` only there,
in R_FRAME and in R_LINE. -/
def Obligations.OnlyTheseWriteAChannel : Prop :=
  ∀ (i : Instr) (s t : State) (n : Nat) (c c' : Channel), exec i s = .next t →
    s.channels[n]? = some c → t.channels[n]? = some c' →
    (c'.resyncCnt ≠ c.resyncCnt → (∃ ch b, i = .feed ch b ∧ ch.toNat = n) ∨ i = .rResync ∨
      ∃ ch v, i = .csrWr ch 0x00#8 v ∧ ch.toNat = n ∧ v.getLsbD 0 = true) ∧
    (c'.buf ≠ c.buf → (∃ ch b, i = .feed ch b ∧ ch.toNat = n) ∨ i = .rResync ∨ i = .rFrame ∨ i = .rLine ∨
      ∃ ch v, i = .csrWr ch 0x00#8 v ∧ ch.toNat = n ∧ v.getLsbD 0 = true)

/-! ### CSRs -/

/-- R44, R45, R46, R183, R43's read value: CTRL reads 0; STATUS reads BUF_LEN, HEAD_STATE, FULL and zeros; RESYNC_CNT the
counter; CAP the capacity. A write to the last three answers OK and changes nothing. -/
def Obligations.CsrsReadAndIgnoreWrites : Prop :=
  ∀ (s : State) (ch : BitVec 4) (c : Channel), s.channels[ch.toNat]? = some c →
    c.buf.length ≤ s.bufCap → s.bufCap ≤ 65535 →
    exec (.csrRd ch 0x00#8) s = .next (answered s .ok (.value 0#32)) ∧
    (∃ v : Word, exec (.csrRd ch 0x01#8) s = .next (answered s .ok (.value v)) ∧
      (v.extractLsb' 0 16).toNat = c.buf.length ∧ v.extractLsb' 16 2 = headState c.buf ∧
      (v.getLsbD 18 = true ↔ c.buf.length = s.bufCap) ∧ v.extractLsb' 19 13 = 0#13) ∧
    exec (.csrRd ch 0x02#8) s = .next (answered s .ok (.value c.resyncCnt)) ∧
    (∃ v : Word, v.toNat = s.bufCap ∧ exec (.csrRd ch 0x03#8) s = .next (answered s .ok (.value v))) ∧
    ∀ v : Word, exec (.csrWr ch 0x01#8 v) s = .next (answered s .ok .none) ∧
      exec (.csrWr ch 0x02#8 v) s = .next (answered s .ok .none) ∧
      exec (.csrWr ch 0x03#8 v) s = .next (answered s .ok .none)

/-- R36: HEAD_STATE's four cases, of which exactly one holds of a quiescent buffer. -/
def Obligations.HeadStateHasItsFourCases : Prop :=
  ∀ buf : List Byte,
    (buf.length = 0 → headState buf = 0#2) ∧
    (buf[0]? = some 0x68#8 → buf.length < 6 → headState buf = 1#2) ∧
    (∀ l, buf[0]? = some 0x68#8 → 6 ≤ buf.length → buf[1]? = some l → buf[2]? = some l → buf.length < l.toNat + 6 →
      headState buf = 2#2) ∧
    (∀ h, buf[0]? = some h → h ≠ 0x68#8 → 0x0A#8 ∉ buf → headState buf = 3#2) ∧
    (stopAction (sel buf) = true ↔ QuiescentShape buf)

/-- R43, R182, R233: CSR_WR to CTRL with bit 0 set empties the channel's buffer and zeroes its counter, keeps its UNITS
and every other channel, and answers OK; with bit 0 clear it changes nothing, whatever bits 31:1 are. CTRL then
reads 0. -/
def Obligations.ClearDiscardsOneChannel : Prop :=
  ∀ (s : State) (ch : BitVec 4) (c : Channel) (v : Word), s.channels[ch.toNat]? = some c →
    (v.toNat % 2 = 1 → exec (.csrWr ch 0x00#8 v) s =
      .next (answered { s with channels := s.channels.set ch.toNat ⟨[], 0#32, c.units⟩ } .ok .none)) ∧
    (v.toNat % 2 = 0 → exec (.csrWr ch 0x00#8 v) s = .next (answered s .ok .none)) ∧
    exec (.csrRd ch 0x00#8) s = .next (answered s .ok (.value 0#32))

/-- R48: a CSR index of at least 4 raises IllegalOp and has no other effect. -/
def Obligations.UnassignedCsrIsIllegalOp : Prop :=
  ∀ (s : State) (ch : BitVec 4) (k : Byte) (v : Word), 4 ≤ k.toNat →
    exec (.csrRd ch k) s = .next (answered s .illegalOp .none) ∧
    exec (.csrWr ch k v) s = .next (answered s .illegalOp .none)

/-- R93 condition 3: a channel the block does not have raises IllegalOp and has no other effect. -/
def Obligations.AbsentChannelIsIllegalOp : Prop :=
  ∀ (s : State) (ch : BitVec 4) (b k : Byte) (v : Word), s.channels.length ≤ ch.toNat →
    exec (.feed ch b) s = .next (answered s .illegalOp .none) ∧
    exec (.csrRd ch k) s = .next (answered s .illegalOp .none) ∧
    exec (.csrWr ch k v) s = .next (answered s .illegalOp .none)

/-! ### Reset -/

/-- R49, R230: a reset between transactions empties every buffer, zeroes every counter, keeps UNITS, answers nothing; then
CTRL, STATUS and RESYNC_CNT read 0 and CAP reads BUF_CAP. -/
def Obligations.ResetPutsEveryChannelFresh : Prop :=
  ∀ (s : State) (rest : List HostEvent), s.feed = none → s.pending = .reset :: rest → 261 ≤ s.bufCap → s.bufCap ≤ 65535 →
    ∃ s' : State, step s = .next s' ∧ s'.bufCap = s.bufCap ∧ s'.channels.length = s.channels.length ∧ s'.feed = none ∧
      s'.pending = rest ∧ s'.responses = s.responses ∧
      ∀ (ch : BitVec 4) (c : Channel), s.channels[ch.toNat]? = some c →
        s'.channels[ch.toNat]? = some ⟨[], 0#32, c.units⟩ ∧
        exec (.csrRd ch 0x00#8) s' = .next (answered s' .ok (.value 0#32)) ∧
        exec (.csrRd ch 0x01#8) s' = .next (answered s' .ok (.value 0#32)) ∧
        exec (.csrRd ch 0x02#8) s' = .next (answered s' .ok (.value 0#32)) ∧
        exec (.csrRd ch 0x03#8) s' = .next (answered s' .ok (.value (BitVec.ofNat 32 s.bufCap)))

/-! ### Records and the assembler -/

/-- R95: the byte record of a unit, and for a FrameOk the places of its fields in RAW. -/
def Obligations.UnitRecordHasItsLayout : Prop :=
  ∀ u : StreamUnit, u.raw.length ≤ 65535 →
    ∃ tag kind lo hi, u.record = [tag, kind, lo, hi] ++ u.raw ∧ lo.toNat + 256 * hi.toNat = u.raw.length ∧
      match u with
      | .frameOk control address payload raw => tag = 0x00#8 ∧ kind = 0x00#8 ∧
          (u.Legal → raw[4]? = some control ∧ raw[5]? = some address ∧ payload = (raw.drop 6).take (raw.length - 8))
      | .frameErr k _ => tag = 0x01#8 ∧ kind = k.code ∧
          (u.Legal → kind = 0x02#8 ∨ kind = 0x04#8 ∨ kind = 0x05#8 ∨ kind = 0x06#8)
      | .text _ => tag = 0x02#8 ∧ kind = 0x00#8

/-- R100: the expansions of the pseudo-instructions, for operands in their ranges. -/
def Obligations.PseudoInstructionsExpand : Prop :=
  ∀ (ch adr ctl : Nat) (bs : List Byte), ch < 16 →
    let ns := bs.map BitVec.toNat
    assemble (.feeds ch ns) = .ok (bs.map fun b => .feed (BitVec.ofNat 4 ch) b) ∧
    assemble (.clear ch) = .ok [.csrWr (BitVec.ofNat 4 ch) 0x00#8 0x00000001#32] ∧
    assemble (.rdstat ch) = .ok [.csrRd (BitVec.ofNat 4 ch) 0x01#8] ∧
    assemble (.rdresync ch) = .ok [.csrRd (BitVec.ofNat 4 ch) 0x02#8] ∧
    (bs.length ≤ 255 → assemble (.encodeDefault ns) = .ok [.encode 0x53#8 0x01#8 bs] ∧
      assemble (.reply adr ns) = .ok [.encode 0x73#8 (BitVec.ofNat 8 adr) bs]) ∧
    (bs.length ≤ 253 → assemble (.sendf ch ctl adr ns) =
      .ok ((enc (BitVec.ofNat 8 ctl) (BitVec.ofNat 8 adr) bs).map fun b => .feed (BitVec.ofNat 4 ch) b)) ∧
    (253 < bs.length → assemble (.sendf ch ctl adr ns) = .error .outOfRange)

/-- R101: the ranges of the assembler's operands, and the mask of `ctl` and `adr`. -/
def Obligations.AssemblerChecksItsRanges : Prop :=
  (∀ ch b : Nat, assemble (.feed ch b) =
    if ch < 16 ∧ b < 256 then .ok [.feed (BitVec.ofNat 4 ch) (BitVec.ofNat 8 b)] else .error .outOfRange) ∧
  (∀ ch k : Nat, assemble (.csrRd ch k) =
    if ch < 16 ∧ k < 256 then .ok [.csrRd (BitVec.ofNat 4 ch) (BitVec.ofNat 8 k)] else .error .outOfRange) ∧
  (∀ ch k v : Nat, assemble (.csrWr ch k v) =
    if ch < 16 ∧ k < 256 ∧ v < 2 ^ 32 then .ok [.csrWr (BitVec.ofNat 4 ch) (BitVec.ofNat 8 k) (BitVec.ofNat 32 v)]
    else .error .outOfRange) ∧
  (∀ (ctl adr : Nat) (bs : List Nat), assemble (.encode ctl adr bs) =
    if bs.length ≤ 255 ∧ ∀ b ∈ bs, b < 256 then
      .ok [.encode (BitVec.ofNat 8 (ctl % 256)) (BitVec.ofNat 8 (adr % 256)) (bs.map (BitVec.ofNat 8))]
    else .error .outOfRange) ∧
  (∀ bs : List Nat, assemble (.decode bs) =
    if bs.length ≤ 4095 ∧ ∀ b ∈ bs, b < 256 then .ok [.decode (bs.map (BitVec.ofNat 8))] else .error .outOfRange) ∧
  (∀ (ch ctl adr : Nat) (bs : List Nat), (∃ b ∈ bs, 256 ≤ b) → assemble (.feeds ch bs) = .error .outOfRange ∧
    assemble (.encodeDefault bs) = .error .outOfRange ∧ assemble (.reply adr bs) = .error .outOfRange ∧
    assemble (.sendf ch ctl adr bs) = .error .outOfRange) ∧
  (∀ (adr : Nat) (bs : List Nat), 255 < bs.length → assemble (.encodeDefault bs) = .error .outOfRange ∧
    assemble (.reply adr bs) = .error .outOfRange) ∧
  ∀ (ch : Nat) (bs : List Nat), 16 ≤ ch → assemble (.feeds ch bs) = .error .outOfRange ∧
    assemble (.clear ch) = .error .outOfRange ∧ assemble (.rdstat ch) = .error .outOfRange ∧
    assemble (.rdresync ch) = .error .outOfRange ∧ ∀ ctl adr, assemble (.sendf ch ctl adr bs) = .error .outOfRange

/-! ### The length of FEED's answer -/

/-- R164: one FEED emits at most `|buf|` units, `|buf|` measured after the append, so its answer lists at most BUF_CAP
records. -/
def Obligations.FeedAnswersAtMostItsBuffer : Prop :=
  ∀ (s : State) (ch : BitVec 4) (b : Byte) (c : Channel),
    s.channels[ch.toNat]? = some c → c.buf.length < s.bufCap →
    ∃ us c', exec (.feed ch b) s = .next (fed s ch.toNat c' us) ∧ c'.units = c.units ++ us ∧
      us.length ≤ (c.buf ++ [b]).length ∧ us.length ≤ s.bufCap
end

