-- ==== Sys2Proof/Laws/Config.lean ====
section
/-! SUPPORT. The values of the numeric constants, for arithmetic. -/

namespace Sys2Proof.Config

@[simp] theorem MAX_PAYLOAD_eq : MAX_PAYLOAD = 253 := rfl
@[simp] theorem MAX_FRAME_eq : MAX_FRAME = 261 := rfl
@[simp] theorem MIN_DEC_eq : MIN_DEC = 6 := rfl
@[simp] theorem ENCODE_MAX_eq : ENCODE_MAX = 255 := rfl
@[simp] theorem DECODE_MAX_eq : DECODE_MAX = 4095 := rfl

end Sys2Proof.Config
end

