-- ==== Sys2Proof/Laws/Decode.lean ====
section
/-! SUPPORT. What header fields, the CSR_WR operand and `sel` are, said once. -/

namespace Sys2Proof

/-! ### Header fields -/

/-- The fields as parts of the header's value (R87). -/
theorem Header.op_toNat (h : Header) : h.op.toNat = h.toNat / 4096 := by
  have := h.isLt
  simp only [Header.op, BitVec.extractLsb'_toNat, Nat.shiftRight_eq_div_pow]; omega

theorem Header.ch_toNat (h : Header) : h.ch.toNat = h.toNat / 256 % 16 := by
  simp only [Header.ch, BitVec.extractLsb'_toNat, Nat.shiftRight_eq_div_pow]

theorem Header.imm_toNat (h : Header) : h.imm.toNat = h.toNat % 256 := by
  simp only [Header.imm, BitVec.extractLsb'_toNat, Nat.shiftRight_eq_div_pow]; omega

theorem Header.len_toNat (h : Header) : h.len.toNat = h.toNat % 4096 := by
  simp only [Header.len, BitVec.extractLsb'_toNat, Nat.shiftRight_eq_div_pow]; omega

/-- The value of a header built from fields. -/
theorem Header.ofFields_toNat (op ch : BitVec 4) (imm : Byte) :
    (Header.ofFields op ch imm).toNat = op.toNat * 4096 + ch.toNat * 256 + imm.toNat := by
  have h2 := ch.isLt; have h3 := imm.isLt
  unfold Header.ofFields
  erw [BitVec.toNat_append, BitVec.toNat_append]
  rw [← Nat.shiftLeft_add_eq_or_of_lt h3, ← Nat.shiftLeft_add_eq_or_of_lt h2, Nat.shiftLeft_eq, Nat.shiftLeft_eq]
  omega

theorem Header.ofLen_toNat (op : BitVec 4) (m : BitVec 12) :
    (Header.ofLen op m).toNat = op.toNat * 4096 + m.toNat := by
  have h2 := m.isLt
  unfold Header.ofLen
  erw [BitVec.toNat_append]
  rw [← Nat.shiftLeft_add_eq_or_of_lt h2, Nat.shiftLeft_eq]

@[simp] theorem Header.op_ofFields (op ch : BitVec 4) (imm : Byte) : (Header.ofFields op ch imm).op = op := by
  apply BitVec.eq_of_toNat_eq
  have h1 := op.isLt; have h2 := ch.isLt; have h3 := imm.isLt
  rw [Header.op_toNat, Header.ofFields_toNat]; omega

@[simp] theorem Header.ch_ofFields (op ch : BitVec 4) (imm : Byte) : (Header.ofFields op ch imm).ch = ch := by
  apply BitVec.eq_of_toNat_eq
  have h1 := op.isLt; have h2 := ch.isLt; have h3 := imm.isLt
  rw [Header.ch_toNat, Header.ofFields_toNat]; omega

@[simp] theorem Header.imm_ofFields (op ch : BitVec 4) (imm : Byte) : (Header.ofFields op ch imm).imm = imm := by
  apply BitVec.eq_of_toNat_eq
  have h1 := op.isLt; have h2 := ch.isLt; have h3 := imm.isLt
  rw [Header.imm_toNat, Header.ofFields_toNat]; omega

@[simp] theorem Header.op_ofLen (op : BitVec 4) (m : BitVec 12) : (Header.ofLen op m).op = op := by
  apply BitVec.eq_of_toNat_eq
  have h1 := op.isLt; have h2 := m.isLt
  rw [Header.op_toNat, Header.ofLen_toNat]; omega

@[simp] theorem Header.len_ofLen (op : BitVec 4) (m : BitVec 12) : (Header.ofLen op m).len = m := by
  apply BitVec.eq_of_toNat_eq
  have h1 := op.isLt; have h2 := m.isLt
  rw [Header.len_toNat, Header.ofLen_toNat]; omega

/-- A header is its OP, CH and IMM fields. -/
theorem Header.ofFields_fields (h : Header) : Header.ofFields h.op h.ch h.imm = h := by
  apply BitVec.eq_of_toNat_eq
  rw [Header.ofFields_toNat, Header.op_toNat, Header.ch_toNat, Header.imm_toNat]
  have := h.isLt; omega

/-- A header is its OP and 12-bit length. -/
theorem Header.ofLen_fields (h : Header) : Header.ofLen h.op h.len = h := by
  apply BitVec.eq_of_toNat_eq
  rw [Header.ofLen_toNat, Header.op_toNat, Header.len_toNat]
  have := h.isLt; omega

/-! ### The CSR_WR operand (R65) -/

/-- The operand's value: `o0 + 2^8 o1 + 2^16 o2 + 2^24 o3`, the fields of R65 not overlapping. -/
theorem wordOfBytes_toNat (o0 o1 o2 o3 : Byte) :
    (wordOfBytes o0 o1 o2 o3).toNat = o0.toNat + 256 * o1.toNat + 65536 * o2.toNat + 16777216 * o3.toNat := by
  have h0 := o0.isLt; have h1 := o1.isLt; have h2 := o2.isLt; have h3 := o3.isLt
  have e1 : o1.toNat <<< 8 % 2 ^ 32 = o1.toNat * 2 ^ 8 := by rw [Nat.shiftLeft_eq]; omega
  have e2 : o2.toNat <<< 16 % 2 ^ 32 = o2.toNat * 2 ^ 16 := by rw [Nat.shiftLeft_eq]; omega
  have e3 : o3.toNat <<< 24 % 2 ^ 32 = o3.toNat * 2 ^ 24 := by rw [Nat.shiftLeft_eq]; omega
  have w (o : Byte) : (o.setWidth 32).toNat = o.toNat := by
    have := o.isLt
    rw [BitVec.toNat_setWidth]; omega
  have f1 : o0.toNat ||| o1.toNat * 2 ^ 8 = o0.toNat + 256 * o1.toNat := by
    rw [Nat.or_comm, ← Nat.shiftLeft_eq, ← Nat.shiftLeft_add_eq_or_of_lt h0, Nat.shiftLeft_eq]; omega
  have f2 : (o0.toNat + 256 * o1.toNat) ||| o2.toNat * 2 ^ 16 = o0.toNat + 256 * o1.toNat + 65536 * o2.toNat := by
    rw [Nat.or_comm, ← Nat.shiftLeft_eq,
      ← Nat.shiftLeft_add_eq_or_of_lt (show o0.toNat + 256 * o1.toNat < 2 ^ 16 by omega), Nat.shiftLeft_eq]; omega
  have f3 : (o0.toNat + 256 * o1.toNat + 65536 * o2.toNat) ||| o3.toNat * 2 ^ 24 =
      o0.toNat + 256 * o1.toNat + 65536 * o2.toNat + 16777216 * o3.toNat := by
    rw [Nat.or_comm, ← Nat.shiftLeft_eq,
      ← Nat.shiftLeft_add_eq_or_of_lt (show o0.toNat + 256 * o1.toNat + 65536 * o2.toNat < 2 ^ 24 by omega),
      Nat.shiftLeft_eq]; omega
  simp only [wordOfBytes, BitVec.toNat_or, BitVec.toNat_shiftLeft, w, e1, e2, e3, f1, f2, f3]

/-- Four operand bytes are those of the word they give. -/
theorem bytesOfWord_wordOfBytes (o0 o1 o2 o3 : Byte) :
    bytesOfWord (wordOfBytes o0 o1 o2 o3) = [o0, o1, o2, o3] := by
  have h0 := o0.isLt; have h1 := o1.isLt; have h2 := o2.isLt; have h3 := o3.isLt
  simp only [bytesOfWord, List.cons.injEq, and_true]
  refine ⟨?_, ?_, ?_, ?_⟩ <;> apply BitVec.eq_of_toNat_eq <;>
    simp only [BitVec.extractLsb'_toNat, wordOfBytes_toNat, Nat.shiftRight_eq_div_pow] <;> omega

/-- A word is what its four bytes give. -/
theorem wordOfBytes_bytesOfWord (v : Word) :
    wordOfBytes (v.extractLsb' 0 8) (v.extractLsb' 8 8) (v.extractLsb' 16 8) (v.extractLsb' 24 8) = v := by
  apply BitVec.eq_of_toNat_eq
  have := v.isLt
  simp only [wordOfBytes_toNat, BitVec.extractLsb'_toNat, Nat.shiftRight_eq_div_pow]
  omega

/-! ### sel (R143) -/

/-- Everything `sel` can answer, with the branch that answers it. -/
theorem sel_cases (buf : List Byte) :
    (sel buf = .rIdle ∧ buf.length = 0) ∨
    (sel buf = .rWaitHdr ∧ 0 < buf.length ∧ byteAt buf 0 = Config.START ∧ buf.length < 6) ∨
    (sel buf = .rResync ∧ 6 ≤ buf.length ∧ byteAt buf 0 = Config.START ∧ byteAt buf 1 ≠ byteAt buf 2) ∨
    (sel buf = .rWaitBody ∧ 6 ≤ buf.length ∧ byteAt buf 0 = Config.START ∧ byteAt buf 1 = byteAt buf 2 ∧
      buf.length < frameLen (byteAt buf 1)) ∨
    (sel buf = .rFrame ∧ 6 ≤ buf.length ∧ byteAt buf 0 = Config.START ∧ byteAt buf 1 = byteAt buf 2 ∧
      frameLen (byteAt buf 1) ≤ buf.length) ∨
    (sel buf = .rLine ∧ 0 < buf.length ∧ byteAt buf 0 ≠ Config.START ∧ Config.NL ∈ buf) ∨
    (sel buf = .rWaitLine ∧ 0 < buf.length ∧ byteAt buf 0 ≠ Config.START ∧ Config.NL ∉ buf) := by
  unfold sel
  by_cases h0 : buf.length = 0
  · simp [h0]
  by_cases h1 : byteAt buf 0 = Config.START
  · by_cases h2 : buf.length < 6
    · simp [h0, h1, h2, Nat.pos_of_ne_zero h0]
    by_cases h3 : byteAt buf 1 = byteAt buf 2
    · by_cases h4 : buf.length < frameLen (byteAt buf 1)
      · have h5 : 6 ≤ buf.length := by omega
        simp only [h0, h1, h2, h3, if_true, if_false, ne_eq, not_true_eq_false]
        rw [h3] at h4
        simp [h4, h5]
      · have h5 : 6 ≤ buf.length := by omega
        simp only [h0, h1, h2, h3, if_true, if_false, ne_eq, not_true_eq_false]
        rw [h3] at h4
        simp [h4, h5]; omega
    · have h5 : 6 ≤ buf.length := by omega
      simp [h0, h1, h2, h3, h5]
  · by_cases h2 : Config.NL ∈ buf <;> simp [h0, h1, h2, Nat.pos_of_ne_zero h0]

/-- `L + 6` is at least 6 and at most 261 (R241: no wrap). -/
theorem frameLen_bounds (l : Byte) : 6 ≤ frameLen l ∧ frameLen l ≤ 261 := by
  have := l.isLt
  unfold frameLen; omega

end Sys2Proof
end

