-- ==== Sys2Proof/Laws/State.lean ====
section
/-! SUPPORT. One lemma per field per update of State and Channel, true by unfolding, so that no proof unfolds a record
update. -/

namespace Sys2Proof.Machine

/-! ### State.respond -/

@[simp] theorem State.respond_bufCap (s : State) (st : Status) (d : Data) :
    (s.respond st d).bufCap = s.bufCap := rfl
@[simp] theorem State.respond_channels (s : State) (st : Status) (d : Data) :
    (s.respond st d).channels = s.channels := rfl
@[simp] theorem State.respond_feed (s : State) (st : Status) (d : Data) :
    (s.respond st d).feed = s.feed := rfl
@[simp] theorem State.respond_pending (s : State) (st : Status) (d : Data) :
    (s.respond st d).pending = s.pending := rfl
@[simp] theorem State.respond_responses (s : State) (st : Status) (d : Data) :
    (s.respond st d).responses = s.responses ++ [⟨st, d⟩] := rfl

/-! ### State.raise -/

@[simp] theorem State.raise_bufCap (s : State) (st : Status) :
    (s.raise st).bufCap = s.bufCap := rfl
@[simp] theorem State.raise_channels (s : State) (st : Status) :
    (s.raise st).channels = s.channels := rfl
@[simp] theorem State.raise_feed (s : State) (st : Status) :
    (s.raise st).feed = s.feed := rfl
@[simp] theorem State.raise_pending (s : State) (st : Status) :
    (s.raise st).pending = s.pending := rfl
@[simp] theorem State.raise_responses (s : State) (st : Status) :
    (s.raise st).responses = s.responses ++ [⟨st, .none⟩] := rfl

/-! ### State.setChannel -/

@[simp] theorem State.setChannel_bufCap (s : State) (ch : Nat) (c : Channel) :
    (s.setChannel ch c).bufCap = s.bufCap := rfl
@[simp] theorem State.setChannel_channels (s : State) (ch : Nat) (c : Channel) :
    (s.setChannel ch c).channels = s.channels.set ch c := rfl
@[simp] theorem State.setChannel_feed (s : State) (ch : Nat) (c : Channel) :
    (s.setChannel ch c).feed = s.feed := rfl
@[simp] theorem State.setChannel_pending (s : State) (ch : Nat) (c : Channel) :
    (s.setChannel ch c).pending = s.pending := rfl
@[simp] theorem State.setChannel_responses (s : State) (ch : Nat) (c : Channel) :
    (s.setChannel ch c).responses = s.responses := rfl

/-! ### State.emit -/

@[simp] theorem State.emit_bufCap (s : State) (f : FeedInProgress) (c : Channel) (u : StreamUnit) :
    (s.emit f c u).bufCap = s.bufCap := rfl
@[simp] theorem State.emit_channels (s : State) (f : FeedInProgress) (c : Channel) (u : StreamUnit) :
    (s.emit f c u).channels = s.channels.set f.ch { c with units := c.units ++ [u] } := rfl
@[simp] theorem State.emit_feed (s : State) (f : FeedInProgress) (c : Channel) (u : StreamUnit) :
    (s.emit f c u).feed = some { f with units := f.units ++ [u] } := rfl
@[simp] theorem State.emit_pending (s : State) (f : FeedInProgress) (c : Channel) (u : StreamUnit) :
    (s.emit f c u).pending = s.pending := rfl
@[simp] theorem State.emit_responses (s : State) (f : FeedInProgress) (c : Channel) (u : StreamUnit) :
    (s.emit f c u).responses = s.responses := rfl

/-! ### State.exitDrain -/

@[simp] theorem State.exitDrain_bufCap (s : State) (f : FeedInProgress) :
    (s.exitDrain f).bufCap = s.bufCap := rfl
@[simp] theorem State.exitDrain_channels (s : State) (f : FeedInProgress) :
    (s.exitDrain f).channels = s.channels := rfl
@[simp] theorem State.exitDrain_feed (s : State) (f : FeedInProgress) :
    (s.exitDrain f).feed = none := rfl
@[simp] theorem State.exitDrain_pending (s : State) (f : FeedInProgress) :
    (s.exitDrain f).pending = s.pending := rfl
@[simp] theorem State.exitDrain_responses (s : State) (f : FeedInProgress) :
    (s.exitDrain f).responses = s.responses ++ [⟨.ok, .records (f.units.map StreamUnit.record)⟩] := rfl

/-! ### State.resetChannels -/

@[simp] theorem State.resetChannels_bufCap (s : State) :
    (s.resetChannels).bufCap = s.bufCap := rfl
@[simp] theorem State.resetChannels_channels (s : State) :
    (s.resetChannels).channels = s.channels.map Channel.clear := rfl
@[simp] theorem State.resetChannels_feed (s : State) :
    (s.resetChannels).feed = none := rfl
@[simp] theorem State.resetChannels_pending (s : State) :
    (s.resetChannels).pending = s.pending := rfl
@[simp] theorem State.resetChannels_responses (s : State) :
    (s.resetChannels).responses = s.responses := rfl

/-! ### openFeed -/

@[simp] theorem openFeed_bufCap (ch : Nat) (bs : List Byte) (c : Channel) (s : State) :
    (openFeed ch bs c s).bufCap = s.bufCap := rfl
@[simp] theorem openFeed_channels (ch : Nat) (bs : List Byte) (c : Channel) (s : State) :
    (openFeed ch bs c s).channels = s.channels.set ch { c with buf := c.buf ++ bs } := rfl
@[simp] theorem openFeed_feed (ch : Nat) (bs : List Byte) (c : Channel) (s : State) :
    (openFeed ch bs c s).feed = some ⟨ch, []⟩ := rfl
@[simp] theorem openFeed_pending (ch : Nat) (bs : List Byte) (c : Channel) (s : State) :
    (openFeed ch bs c s).pending = s.pending := rfl
@[simp] theorem openFeed_responses (ch : Nat) (bs : List Byte) (c : Channel) (s : State) :
    (openFeed ch bs c s).responses = s.responses := rfl

/-! ### Channel.clear and Channel.drop -/

@[simp] theorem Channel.clear_buf (c : Channel) : (c.clear).buf = [] := rfl
@[simp] theorem Channel.clear_resyncCnt (c : Channel) : (c.clear).resyncCnt = 0#32 := rfl
@[simp] theorem Channel.clear_units (c : Channel) : (c.clear).units = c.units := rfl
@[simp] theorem Channel.drop_buf (c : Channel) (k : Nat) : (c.drop k).buf = c.buf.drop k := rfl
@[simp] theorem Channel.drop_resyncCnt (c : Channel) (k : Nat) : (c.drop k).resyncCnt = c.resyncCnt := rfl
@[simp] theorem Channel.drop_units (c : Channel) (k : Nat) : (c.drop k).units = c.units := rfl

/-! ### withHead -/

@[simp] theorem State.withHead_bufCap (s : State) (buf : List Byte) : (s.withHead buf).bufCap = s.bufCap := by
  unfold State.withHead; split <;> rfl
@[simp] theorem State.withHead_pending (s : State) (buf : List Byte) : (s.withHead buf).pending = s.pending := by
  unfold State.withHead; split <;> rfl
@[simp] theorem State.withHead_responses (s : State) (buf : List Byte) :
    (s.withHead buf).responses = s.responses := by
  unfold State.withHead; split <;> rfl

end Sys2Proof.Machine
end

