-- ==== Sys2Proof/Laws/Ops.lean ====
section
/-! SUPPORT. What the shared operations can do, said once. -/

namespace Sys2Proof.Machine

@[simp] theorem andThen_next (s : State) (k : State → Result) : andThen (.next s) k = k s := rfl
@[simp] theorem andThen_fault (e : Fault) (k : State → Result) : andThen (.fault e) k = .fault e := rfl
@[simp] theorem andThen_refused (e : Refusal) (k : State → Result) : andThen (.refused e) k = .refused e := rfl

/-- `onChannel` on a channel the block has. -/
theorem onChannel_some {ch : BitVec 4} {s : State} {c : Channel} (act : Channel → Result)
    (h : s.channels[ch.toNat]? = some c) : onChannel ch s act = act c := by
  simp [onChannel, h]

/-- `onChannel` on a channel the block does not have. -/
theorem onChannel_none {ch : BitVec 4} {s : State} (act : Channel → Result)
    (h : s.channels[ch.toNat]? = none) : onChannel ch s act = .next (s.raise .illegalOp) := by
  simp [onChannel, h]

/-- Everything `onChannel` can do when it answers a next state. -/
theorem onChannel_cases {ch : BitVec 4} {s t : State} {act : Channel → Result} (h : onChannel ch s act = .next t) :
    (s.channels[ch.toNat]? = none ∧ t = s.raise .illegalOp) ∨
    (∃ c, s.channels[ch.toNat]? = some c ∧ act c = .next t) := by
  unfold onChannel at h
  split at h
  · exact .inr ⟨_, ‹_›, h⟩
  · exact .inl ⟨‹_›, by injection h with h; exact h.symm⟩

/-- The buffer of a channel the block has. -/
theorem State.bufOf_some {s : State} {ch : Nat} {c : Channel} (h : s.channels[ch]? = some c) : s.bufOf ch = c.buf := by
  simp [State.bufOf, h]

/-- A step action where it is selected. -/
theorem whenSelected_selected {i : Instr} {s : State} {f : FeedInProgress} {c : Channel}
    (act : FeedInProgress → Channel → State) (hf : s.feed = some f) (hc : s.channels[f.ch]? = some c)
    (hs : sel c.buf = i) : whenSelected i s act = .next (act f c) := by
  simp [whenSelected, hf, hc, hs]

/-- Everything a step action can do when it answers a next state. -/
theorem whenSelected_cases {i : Instr} {s t : State} {act : FeedInProgress → Channel → State}
    (h : whenSelected i s act = .next t) :
    ∃ f c, s.feed = some f ∧ s.channels[f.ch]? = some c ∧ sel c.buf = i ∧ t = act f c := by
  unfold whenSelected at h
  split at h
  · cases h
  · split at h
    · cases h
    · split at h
      · exact ⟨_, _, ‹_›, ‹_›, ‹_›, by injection h with h; exact h.symm⟩
      · cases h

/-- A step action never refuses. -/
theorem whenSelected_not_refused {i : Instr} {s : State} {act : FeedInProgress → Channel → State} {r : Refusal} :
    whenSelected i s act ≠ .refused r := by
  unfold whenSelected
  split
  · simp
  · split
    · simp
    · split <;> simp

/-- The slice from the head is a prefix. -/
@[simp] theorem slice_zero (s : List Byte) (j : Nat) : slice s 0 j = s.take j := by simp [slice]

/-- Reading inside a sequence. -/
theorem byteAt_of_getElem? {s : List Byte} {i : Nat} {b : Byte} (h : s[i]? = some b) : byteAt s i = b := by
  simp [byteAt, List.getD_eq_getElem?_getD, h]

/-- Every offset inside a sequence is read as it stands (R61). -/
theorem getElem?_eq_byteAt {s : List Byte} {i : Nat} (h : i < s.length) : s[i]? = some (byteAt s i) := by
  simp [byteAt, List.getD_eq_getElem?_getD, h]

/-- A cleared channel is a fresh one but for UNITS (R182, R49). -/
theorem Channel.clear_eq (c : Channel) : c.clear = ⟨[], 0#32, c.units⟩ := rfl

/-- CSR index and register (R42). -/
theorem csrOf_isSome (k : Byte) : (csrOf k).isSome ↔ k.toNat < 4 := by
  unfold csrOf
  split <;> simp_all
  omega

theorem csrOf_eq_none {k : Byte} (h : 4 ≤ k.toNat) : csrOf k = none := by
  unfold csrOf
  split <;> simp_all

end Sys2Proof.Machine
end

