-- ==== Sys2Proof/Laws/PerInstr.lean ====
section
/-! SUPPORT. Family TableRow: every instruction's encoding lies in its own row of spec/opcode_table.json, by the row's
mask and match (16 bits for a host operation, 24 bits H0 H1 H2 for a step action). -/

namespace Sys2Proof.Laws.TableRow

/-- The bits a row's mask and match are about. -/
def bitsOf : Encoding → BitVec 24
  | .host t => t.header.setWidth 24
  | .head buf => byteAt buf 0 ++ byteAt buf 1 ++ byteAt buf 2

/-- Mask and match of the instruction's row, from the table. -/
def row : Instr → BitVec 24 × BitVec 24
  | .feed _ _ => (0x00F000#24, 0x001000#24)
  | .encode _ _ _ => (0x00FF00#24, 0x002000#24)
  | .decode _ => (0x00F000#24, 0x003000#24)
  | .csrRd _ _ => (0x00F000#24, 0x004000#24)
  | .csrWr _ _ _ => (0x00F000#24, 0x005000#24)
  | .rIdle => (0x000000#24, 0x000000#24)
  | .rWaitHdr => (0xFF0000#24, 0x680000#24)
  | .rResync => (0xFF0000#24, 0x680000#24)
  | .rWaitBody => (0xFF0000#24, 0x680000#24)
  | .rFrame => (0xFF0000#24, 0x680000#24)
  | .rLine => (0x000000#24, 0x000000#24)
  | .rWaitLine => (0x000000#24, 0x000000#24)

/-- The encoding's bits under the row's mask are the row's match. -/
def Statement (i : Instr) : Prop := bitsOf (encode i) &&& (row i).1 = (row i).2

/-- A header under the mask of its OP field. -/
theorem header_and_op (h : Header) : h.setWidth 24 &&& 0x00F000#24 = h.op.setWidth 24 <<< 12 := by
  apply BitVec.eq_of_getLsbD_eq
  intro i hi
  interval_cases i <;> simp [Header.op]

/-- A header under the mask of its OP and CH fields. -/
theorem header_and_op_ch (h : Header) :
    h.setWidth 24 &&& 0x00FF00#24 = (h.op.setWidth 24 <<< 12) ||| (h.ch.setWidth 24 <<< 8) := by
  apply BitVec.eq_of_getLsbD_eq
  intro i hi
  interval_cases i <;> simp [Header.op, Header.ch]

theorem feed (ch : BitVec 4) (b : Byte) : Statement (.feed ch b) := by
  simp [Statement, bitsOf, encode, row, header_and_op]

theorem encode (control address : Byte) (payload : List Byte) : Statement (.encode control address payload) := by
  simp [Statement, bitsOf, Sys2Proof.encode, row, header_and_op_ch]

theorem decode (f : List Byte) : Statement (.decode f) := by
  simp [Statement, bitsOf, Sys2Proof.encode, row, header_and_op]

theorem csrRd (ch : BitVec 4) (k : Byte) : Statement (.csrRd ch k) := by
  simp [Statement, bitsOf, Sys2Proof.encode, row, header_and_op]

theorem csrWr (ch : BitVec 4) (k : Byte) (v : Word) : Statement (.csrWr ch k v) := by
  simp [Statement, bitsOf, Sys2Proof.encode, row, header_and_op]

theorem rIdle : Statement .rIdle := by unfold Statement; decide
theorem rWaitHdr : Statement .rWaitHdr := by unfold Statement; decide
theorem rResync : Statement .rResync := by unfold Statement; decide
theorem rWaitBody : Statement .rWaitBody := by unfold Statement; decide
theorem rFrame : Statement .rFrame := by unfold Statement; decide
theorem rLine : Statement .rLine := by unfold Statement; decide
theorem rWaitLine : Statement .rWaitLine := by unfold Statement; decide

end Sys2Proof.Laws.TableRow
end

