-- ==== Sys2Proof/Laws/Reassembler.lean ====
section
/-! SUPPORT. DRAIN under fuel is the algorithm's relation `DrainRun`, and what `DrainRun` can do, said once. -/

namespace Sys2Proof.Machine

/-- The unit of a frame that decodes. -/
theorem frameUnit_ok {f : List Byte} {d : Frame} (h : dec f = .ok d) :
    frameUnit f = .frameOk d.control d.address d.payload f := by simp [frameUnit, h]

/-- The unit of a frame that fails. -/
theorem frameUnit_error {f : List Byte} {k : DecodeError} (h : dec f = .error k) : frameUnit f = .frameErr k f := by
  simp [frameUnit, h]

/-- A unit's `raw` is the bytes it was made of. -/
@[simp] theorem frameUnit_raw (f : List Byte) : (frameUnit f).raw = f := by
  unfold frameUnit
  split <;> rfl

/-- A stop action ends the FEED. -/
theorem runAction_stop {s : State} {f : FeedInProgress} {c : Channel} (hf : s.feed = some f)
    (hc : s.channels[f.ch]? = some c) (h : stopAction (sel c.buf) = true) :
    runAction (sel c.buf) s = .next (s.exitDrain f) := by
  rcases sel_cases c.buf with ⟨h1, -⟩ | ⟨h1, -⟩ | ⟨h1, -⟩ | ⟨h1, -⟩ | ⟨h1, -⟩ | ⟨h1, -⟩ | ⟨h1, -⟩ <;>
    rw [h1] at h ⊢
  · exact whenSelected_selected _ hf hc h1
  · exact whenSelected_selected _ hf hc h1
  · simp [stopAction] at h
  · exact whenSelected_selected _ hf hc h1
  · simp [stopAction] at h
  · simp [stopAction] at h
  · exact whenSelected_selected _ hf hc h1

theorem runAction_resync {s : State} {f : FeedInProgress} {c : Channel} (hf : s.feed = some f)
    (hc : s.channels[f.ch]? = some c) (h : sel c.buf = .rResync) :
    runAction .rResync s = .next (s.setChannel f.ch ⟨c.buf.drop 1, c.resyncCnt + 1#32, c.units⟩) :=
  whenSelected_selected _ hf hc h

theorem runAction_frame {s : State} {f : FeedInProgress} {c : Channel} (hf : s.feed = some f)
    (hc : s.channels[f.ch]? = some c) (h : sel c.buf = .rFrame) :
    runAction .rFrame s = .next (s.emit f (c.drop (frameLen (byteAt c.buf 1)))
      (frameUnit (c.buf.take (frameLen (byteAt c.buf 1))))) := by
  rw [← slice_zero]
  exact whenSelected_selected _ hf hc h

theorem runAction_line {s : State} {f : FeedInProgress} {c : Channel} (hf : s.feed = some f)
    (hc : s.channels[f.ch]? = some c) (h : sel c.buf = .rLine) :
    runAction .rLine s = .next (s.emit f (c.drop (c.buf.idxOf Config.NL + 1))
      (.text (c.buf.take (c.buf.idxOf Config.NL + 1)))) := by
  rw [← slice_zero]
  exact whenSelected_selected _ hf hc h

/-- A buffer with NL in it is its first line and the rest. -/
theorem firstLine {b : List Byte} (h : Config.NL ∈ b) :
    ∃ t rest, b = t ++ Config.NL :: rest ∧ Config.NL ∉ t ∧ b.take (b.idxOf Config.NL + 1) = t ++ [Config.NL] ∧
      b.drop (b.idxOf Config.NL + 1) = rest := by
  induction b with
  | nil => simp at h
  | cons x xs ih =>
    by_cases hx : x = Config.NL
    · exact ⟨[], xs, by simp [hx], by simp, by simp [hx], by simp [hx]⟩
    · have h' : Config.NL ∈ xs := by
        rcases List.mem_cons.mp h with h | h
        · exact absurd h.symm hx
        · exact h
      obtain ⟨t, rest, h1, h2, h3, h4⟩ := ih h'
      have hi : (x :: xs).idxOf Config.NL = xs.idxOf Config.NL + 1 := by
        simp [hx]
      refine ⟨x :: t, rest, by simp [← h1], ?_, ?_, ?_⟩
      · simp only [List.mem_cons, not_or]
        exact ⟨fun e => hx e.symm, h2⟩
      · rw [hi, List.take_succ_cons, h3]; rfl
      · rw [hi, List.drop_succ_cons, h4]

/-- A progress action leaves fewer bytes (R151). -/
theorem frame_shorter {b : List Byte} (h : sel b = .rFrame) : (b.drop (frameLen (byteAt b 1))).length < b.length := by
  have h6 : 6 ≤ b.length := by
    rcases sel_cases b with h1 | h1 | h1 | h1 | h1 | h1 | h1 <;> simp_all
  have := (frameLen_bounds (byteAt b 1)).1
  simp only [List.length_drop]; omega

theorem resync_shorter {b : List Byte} (h : sel b = .rResync) : (b.drop 1).length < b.length := by
  have h6 : 6 ≤ b.length := by
    rcases sel_cases b with h1 | h1 | h1 | h1 | h1 | h1 | h1 <;> simp_all
  simp only [List.length_drop]; omega

theorem line_mem {b : List Byte} (h : sel b = .rLine) : Config.NL ∈ b := by
  rcases sel_cases b with h1 | h1 | h1 | h1 | h1 | h1 | h1 <;> simp_all

/-- The state a finished FEED leaves: its channel, its response, nothing in progress. -/
def fedState (s : State) (f : FeedInProgress) (us : List StreamUnit) (c' : Channel) : State :=
  { s with channels := s.channels.set f.ch c', feed := none,
           responses := s.responses ++ [⟨.ok, .records ((f.units ++ us).map StreamUnit.record)⟩] }

/-- Channel `ch` after it was set. -/
theorem getElem?_set_of_some {s : State} {ch : Nat} {c c' : Channel} (h : s.channels[ch]? = some c) :
    (s.channels.set ch c')[ch]? = some c' := by
  have : ch < s.channels.length := by
    rw [List.getElem?_eq_some_iff] at h; exact h.1
  simp [this]

/-- Everything DRAIN does (R142, R151): with fuel over `|buf|` it runs the algorithm to its stop action, changes
nothing but the channel of the FEED, and completes the FEED. -/
theorem drain_spec (n : Nat) : ∀ {s : State} {f : FeedInProgress} {c : Channel}, s.feed = some f →
    s.channels[f.ch]? = some c → c.buf.length < n →
    ∃ us c', DrainRun c us c' ∧ drain n s = .next (fedState s f us c') := by
  induction n with
  | zero => intro s f c _ _ h; exact absurd h (Nat.not_lt_zero _)
  | succ n ih =>
    intro s f c hf hc hlt
    have hd (m : Nat) : drain (m + 1) s = andThen (runAction (sel c.buf) s) (drain m) := by
      simp [drain, hf, State.bufOf_some hc]
    have hset : ∀ c', (s.channels.set f.ch c')[f.ch]? = some c' := fun c' => getElem?_set_of_some hc
    by_cases hs : stopAction (sel c.buf) = true
    · refine ⟨[], c, .stop c hs, ?_⟩
      rw [hd, runAction_stop hf hc hs, andThen_next]
      have hself : s.channels.set f.ch c = s.channels := by
        apply List.ext_getElem?
        intro i
        by_cases e : f.ch = i
        · subst e; rw [hset, hc]
        · rw [List.getElem?_set_ne e]
      have : s.exitDrain f = fedState s f [] c := by simp [State.exitDrain, State.respond, fedState, hself]
      rw [this]
      cases n <;> simp [drain, fedState]
    · have step : ∀ (c1 : Channel) (f1 : FeedInProgress) (s1 : State), f1.ch = f.ch → s1.feed = some f1 →
          s1.channels = s.channels.set f.ch c1 → s1.bufCap = s.bufCap → s1.pending = s.pending →
          s1.responses = s.responses → runAction (sel c.buf) s = .next s1 → c1.buf.length < c.buf.length →
          ∃ us c', DrainRun c1 us c' ∧ drain (n + 1) s =
            .next { s with channels := s.channels.set f.ch c', feed := none,
                           responses := s.responses ++ [⟨.ok, .records ((f1.units ++ us).map StreamUnit.record)⟩] } := by
        intro c1 f1 s1 e1 e2 e3 e4 e5 e6 hr hl
        have hc1 : s1.channels[f1.ch]? = some c1 := by rw [e1, e3]; exact hset c1
        obtain ⟨us, c', hrun, hdr⟩ := ih e2 hc1 (by omega)
        refine ⟨us, c', hrun, ?_⟩
        rw [hd, hr, andThen_next, hdr]
        simp [fedState, e1, e3, e4, e5, e6]
      rcases sel_cases c.buf with ⟨h1, -⟩ | ⟨h1, -⟩ | ⟨h1, -⟩ | ⟨h1, -⟩ | ⟨h1, -⟩ | ⟨h1, -⟩ | ⟨h1, -⟩
      · simp [h1, stopAction] at hs
      · simp [h1, stopAction] at hs
      · obtain ⟨us, c', hrun, hdr⟩ := step ⟨c.buf.drop 1, c.resyncCnt + 1#32, c.units⟩ f (s.setChannel f.ch ⟨c.buf.drop 1, c.resyncCnt + 1#32, c.units⟩)
          rfl hf rfl rfl rfl rfl (by rw [h1]; exact runAction_resync hf hc h1) (resync_shorter h1)
        exact ⟨us, c', .resync _ _ _ h1 hrun, hdr⟩
      · simp [h1, stopAction] at hs
      · obtain ⟨us, c', hrun, hdr⟩ := step _ _ _ (by rfl) (State.emit_feed _ _ _ _) rfl rfl rfl rfl
          (by rw [h1]; exact runAction_frame hf hc h1) (by simpa using frame_shorter h1)
        refine ⟨frameUnit (c.buf.take (frameLen (byteAt c.buf 1))) :: us, c', ?_, ?_⟩
        · cases hv : dec (c.buf.take (frameLen (byteAt c.buf 1))) with
          | ok d =>
            rw [frameUnit_ok hv] at hrun ⊢
            exact .frameOk _ _ _ d h1 hv hrun
          | error k =>
            rw [frameUnit_error hv] at hrun ⊢
            exact .frameErr _ _ _ k h1 hv hrun
        · rw [hdr]; simp [fedState]
      · obtain ⟨t, rest, g1, g2, g3, g4⟩ := firstLine (line_mem h1)
        obtain ⟨us, c', hrun, hdr⟩ := step _ _ _ (by rfl) (State.emit_feed _ _ _ _) rfl rfl rfl rfl
          (by rw [h1]; exact runAction_line hf hc h1)
          (by
            have : 0 < c.buf.length := List.length_pos_of_mem (line_mem h1)
            simp; omega)
        refine ⟨.text (t ++ [Config.NL]) :: us, c', ?_, ?_⟩
        · refine .line _ _ _ t rest h1 g1 g2 ?_
          simpa [g3, g4] using hrun
        · rw [hdr]; simp [fedState, g3]
      · simp [h1, stopAction] at hs

/-- Everything a chunk fed to a channel does (R140, R152). -/
theorem feedChunk_spec {ch : Nat} {c : Channel} {s : State} (bs : List Byte) (hc : s.channels[ch]? = some c) :
    ∃ us c', DrainRun { c with buf := c.buf ++ bs } us c' ∧ feedChunk ch bs c s = .next (fedState s ⟨ch, []⟩ us c') := by
  have hc1 : (openFeed ch bs c s).channels[ch]? = some { c with buf := c.buf ++ bs } := getElem?_set_of_some hc
  obtain ⟨us, c', hr, hd⟩ := drain_spec ((c.buf ++ bs).length + 1) (s := openFeed ch bs c s) (f := ⟨ch, []⟩) rfl hc1
    (Nat.lt_succ_self _)
  refine ⟨us, c', hr, ?_⟩
  rw [feedChunk, hd]
  simp [fedState, openFeed]

/-- DRAIN ends quiescent. -/
theorem DrainRun.quiescent {c c' : Channel} {us : List StreamUnit} (h : DrainRun c us c') : Quiescent c'.buf := by
  induction h with
  | stop _ h => exact h
  | resync => assumption
  | frameOk => assumption
  | frameErr => assumption
  | line => assumption

/-- What DRAIN emits is what it appends to UNITS. -/
theorem DrainRun.units {c c' : Channel} {us : List StreamUnit} (h : DrainRun c us c') : c'.units = c.units ++ us := by
  induction h with
  | stop => simp
  | resync _ _ _ _ _ ih => exact ih
  | frameOk _ _ _ _ _ _ _ ih => simp [ih]
  | frameErr _ _ _ _ _ _ _ ih => simp [ih]
  | line _ _ _ _ _ _ _ _ _ ih => simp [ih]

end Sys2Proof.Machine
end

