-- ==== Sys2Proof/Laws/Step.lean ====
section
/-! SUPPORT. What an instruction and a step can do, said once. -/

namespace Sys2Proof.Machine

/-- Everything FEED can do (R140, R141, R93). -/
theorem execFeed_cases (ch : BitVec 4) (b : Byte) (s : State) :
    (s.channels[ch.toNat]? = none ∧ execFeed ch b s = .next (s.raise .illegalOp)) ∨
    (∃ c, s.channels[ch.toNat]? = some c ∧ c.buf.length = s.bufCap ∧ execFeed ch b s = .next s) ∨
    (∃ c us c', s.channels[ch.toNat]? = some c ∧ c.buf.length ≠ s.bufCap ∧
      DrainRun { c with buf := c.buf ++ [b] } us c' ∧
      execFeed ch b s = .next (fedState s ⟨ch.toNat, []⟩ us c')) := by
  cases h : s.channels[ch.toNat]? with
  | none => exact .inl ⟨rfl, onChannel_none _ h⟩
  | some c =>
    refine .inr ?_
    by_cases hl : c.buf.length = s.bufCap
    · exact .inl ⟨c, rfl, hl, by simp [execFeed, onChannel_some _ h, hl]⟩
    · obtain ⟨us, c', hr, he⟩ := feedChunk_spec [b] h
      exact .inr ⟨c, us, c', rfl, hl, hr, by simp [execFeed, onChannel_some _ h, hl, he]⟩

/-- Everything the codec can do: it answers (R38). -/
theorem execEncode_cases (control address : Byte) (payload : List Byte) (s : State) :
    execEncode control address payload s = .next (s.raise .encodeTooLong) ∨
    execEncode control address payload s = .next (s.respond .ok (.bytes (enc control address payload))) := by
  unfold execEncode
  split
  · exact .inl rfl
  · exact .inr rfl

theorem execDecode_cases (f : List Byte) (s : State) :
    (∃ k, dec f = .error k ∧ execDecode f s = .next (s.raise (.decodeError k))) ∨
    (∃ d, dec f = .ok d ∧ execDecode f s = .next (s.respond .ok (.fields d))) := by
  unfold execDecode respondVerdict
  cases dec f with
  | error k => exact .inl ⟨k, rfl, rfl⟩
  | ok d => exact .inr ⟨d, rfl, rfl⟩

/-- Everything CSR_RD can do (R180). -/
theorem execCsrRd_cases (ch : BitVec 4) (k : Byte) (s : State) :
    execCsrRd ch k s = .next (s.raise .illegalOp) ∨
    (∃ c r, s.channels[ch.toNat]? = some c ∧ csrOf k = some r ∧
      execCsrRd ch k s = .next (s.respond .ok (.value (csrValue s.bufCap c r)))) := by
  cases h : s.channels[ch.toNat]? with
  | none => exact .inl (onChannel_none _ h)
  | some c =>
    cases hk : csrOf k with
    | none => exact .inl (by simp [execCsrRd, onChannel_some _ h, hk])
    | some r => exact .inr ⟨c, r, rfl, rfl, by simp [execCsrRd, onChannel_some _ h, hk]⟩

/-- Everything CSR_WR can do (R181). -/
theorem execCsrWr_cases (ch : BitVec 4) (k : Byte) (v : Word) (s : State) :
    execCsrWr ch k v s = .next (s.raise .illegalOp) ∨
    (∃ c r, s.channels[ch.toNat]? = some c ∧ csrOf k = some r ∧
      execCsrWr ch k v s = .next ((s.setChannel ch.toNat (csrWritten c v r)).respond .ok .none)) := by
  cases h : s.channels[ch.toNat]? with
  | none => exact .inl (onChannel_none _ h)
  | some c =>
    cases hk : csrOf k with
    | none => exact .inl (by simp [execCsrWr, onChannel_some _ h, hk])
    | some r => exact .inr ⟨c, r, rfl, rfl, by simp [execCsrWr, onChannel_some _ h, hk]⟩

/-- Writing a channel's own value back changes nothing. -/
theorem setChannel_self {s : State} {ch : Nat} {c : Channel} (h : s.channels[ch]? = some c) : s.setChannel ch c = s := by
  have : s.channels.set ch c = s.channels := by
    apply List.ext_getElem?
    intro i
    by_cases e : ch = i
    · subst e; rw [getElem?_set_of_some h, h]
    · rw [List.getElem?_set_ne e]
  simp [State.setChannel, this]

/-- Everything a step action can do when it answers a next state (R144 to R150). -/
theorem stepAction_cases {i : Instr} {s t : State} (h : runAction i s = .next t) :
    ∃ f c, s.feed = some f ∧ s.channels[f.ch]? = some c ∧ sel c.buf = i ∧
      ((stopAction i = true ∧ t = s.exitDrain f) ∨
       (i = .rResync ∧ t = s.setChannel f.ch ⟨c.buf.drop 1, c.resyncCnt + 1#32, c.units⟩) ∨
       (i = .rFrame ∧ t = s.emit f (c.drop (frameLen (byteAt c.buf 1)))
          (frameUnit (c.buf.take (frameLen (byteAt c.buf 1))))) ∨
       (i = .rLine ∧ t = s.emit f (c.drop (c.buf.idxOf Config.NL + 1))
          (.text (c.buf.take (c.buf.idxOf Config.NL + 1))))) := by
  cases i with
  | feed => cases h
  | encode => cases h
  | decode => cases h
  | csrRd => cases h
  | csrWr => cases h
  | rIdle =>
    obtain ⟨f, c, hf, hc, hs, ht⟩ := whenSelected_cases h
    exact ⟨f, c, hf, hc, hs, .inl ⟨rfl, ht⟩⟩
  | rWaitHdr =>
    obtain ⟨f, c, hf, hc, hs, ht⟩ := whenSelected_cases h
    exact ⟨f, c, hf, hc, hs, .inl ⟨rfl, ht⟩⟩
  | rWaitBody =>
    obtain ⟨f, c, hf, hc, hs, ht⟩ := whenSelected_cases h
    exact ⟨f, c, hf, hc, hs, .inl ⟨rfl, ht⟩⟩
  | rWaitLine =>
    obtain ⟨f, c, hf, hc, hs, ht⟩ := whenSelected_cases h
    exact ⟨f, c, hf, hc, hs, .inl ⟨rfl, ht⟩⟩
  | rResync =>
    obtain ⟨f, c, hf, hc, hs, ht⟩ := whenSelected_cases h
    exact ⟨f, c, hf, hc, hs, .inr (.inl ⟨rfl, ht⟩)⟩
  | rFrame =>
    obtain ⟨f, c, hf, hc, hs, ht⟩ := whenSelected_cases h
    exact ⟨f, c, hf, hc, hs, .inr (.inr (.inl ⟨rfl, by simpa using ht⟩))⟩
  | rLine =>
    obtain ⟨f, c, hf, hc, hs, ht⟩ := whenSelected_cases h
    exact ⟨f, c, hf, hc, hs, .inr (.inr (.inr ⟨rfl, by simpa using ht⟩))⟩

/-- Everything an instruction can do when it answers a next state. -/
theorem exec_cases {i : Instr} {s t : State} (h : exec i s = .next t) :
    (∃ ch b, i = .feed ch b ∧ t = s) ∨
    (∃ ch b c us c', i = .feed ch b ∧ s.channels[ch.toNat]? = some c ∧ c.buf.length ≠ s.bufCap ∧
      DrainRun { c with buf := c.buf ++ [b] } us c' ∧ t = fedState s ⟨ch.toNat, []⟩ us c') ∨
    (∃ st, st ≠ .ok ∧ t = s.raise st) ∨
    (∃ d, t = s.respond .ok d) ∨
    (∃ ch v c, i = .csrWr ch 0x00#8 v ∧ v.getLsbD 0 = true ∧ s.channels[ch.toNat]? = some c ∧
      t = (s.setChannel ch.toNat c.clear).respond .ok .none) ∨
    runAction i s = .next t := by
  have inj {a b : State} (e : (Host.Outcome.next a : Result) = .next b) : b = a := by injection e with e; exact e.symm
  cases i with
  | feed ch b =>
    rcases execFeed_cases ch b s with ⟨-, he⟩ | ⟨c, hc, hl, he⟩ | ⟨c, us, c', hc, hl, hr, he⟩
    · exact .inr (.inr (.inl ⟨.illegalOp, by simp, inj (he.symm.trans h)⟩))
    · exact .inl ⟨ch, b, rfl, inj (he.symm.trans h)⟩
    · exact .inr (.inl ⟨ch, b, c, us, c', rfl, hc, hl, hr, inj (he.symm.trans h)⟩)
  | encode c a p =>
    rcases execEncode_cases c a p s with he | he
    · exact .inr (.inr (.inl ⟨_, by simp, inj (he.symm.trans h)⟩))
    · exact .inr (.inr (.inr (.inl ⟨_, inj (he.symm.trans h)⟩)))
  | decode f =>
    rcases execDecode_cases f s with ⟨k, -, he⟩ | ⟨d, -, he⟩
    · exact .inr (.inr (.inl ⟨_, by simp, inj (he.symm.trans h)⟩))
    · exact .inr (.inr (.inr (.inl ⟨_, inj (he.symm.trans h)⟩)))
  | csrRd ch k =>
    rcases execCsrRd_cases ch k s with he | ⟨c, r, -, -, he⟩
    · exact .inr (.inr (.inl ⟨_, by simp, inj (he.symm.trans h)⟩))
    · exact .inr (.inr (.inr (.inl ⟨_, inj (he.symm.trans h)⟩)))
  | csrWr ch k v =>
    rcases execCsrWr_cases ch k v s with he | ⟨c, r, hc, hk, he⟩
    · exact .inr (.inr (.inl ⟨_, by simp, inj (he.symm.trans h)⟩))
    · have ht := inj (he.symm.trans h)
      by_cases hclr : r = .ctrl ∧ v.getLsbD 0 = true
      · obtain ⟨rfl, hv⟩ := hclr
        have k0 : k = 0x00#8 := by
          apply BitVec.eq_of_toNat_eq
          unfold csrOf at hk
          split at hk <;> simp_all
        refine .inr (.inr (.inr (.inr (.inl ⟨ch, v, c, by rw [k0], hv, hc, ?_⟩))))
        simpa [csrWritten, hv] using ht
      · have hw : csrWritten c v r = c := by
          cases r <;> simp_all [csrWritten]
        rw [hw, setChannel_self hc] at ht
        exact .inr (.inr (.inr (.inl ⟨_, ht⟩)))
  | rIdle => exact .inr (.inr (.inr (.inr (.inr h))))
  | rWaitHdr => exact .inr (.inr (.inr (.inr (.inr h))))
  | rResync => exact .inr (.inr (.inr (.inr (.inr h))))
  | rWaitBody => exact .inr (.inr (.inr (.inr (.inr h))))
  | rFrame => exact .inr (.inr (.inr (.inr (.inr h))))
  | rLine => exact .inr (.inr (.inr (.inr (.inr h))))
  | rWaitLine => exact .inr (.inr (.inr (.inr (.inr h))))

/-- Everything a step can be: an action of the FEED in progress, or, between transactions, a decoded transaction, an
illegal one, a reset, or nothing but an event taken from the queue. -/
theorem step_cases (s : State) :
    (∃ f, s.feed = some f ∧ step s = exec (sel (s.bufOf f.ch)) s) ∨
    (s.feed = none ∧
      ((∃ t i q, decodeHost t = .ok i ∧ step s = exec i { s with pending := q }) ∨
       (∃ q, step s = .next (({ s with pending := q } : State).raise .illegalOp)) ∨
       (∃ q, step s = .next ({ s with pending := q } : State).resetChannels) ∨
       (∃ q, step s = .next { s with pending := q }))) := by
  cases hf : s.feed with
  | some f => exact .inl ⟨f, rfl, by simp [step, fetch, hf]⟩
  | none =>
    refine .inr ⟨rfl, ?_⟩
    cases hp : s.pending with
    | nil => exact .inr (.inr (.inr ⟨[], by simp only [step, fetch, hf, hp]; rw [← hp, ← hf]⟩))
    | cons e rest =>
      cases e with
      | withdraw => exact .inr (.inr (.inr ⟨rest, by simp only [step, fetch, hf, hp]⟩))
      | reset => exact .inr (.inr (.inl ⟨rest, by simp only [step, fetch, hf, hp]⟩))
      | issue t =>
        cases hd : decodeHost t with
        | error e => exact .inr (.inl ⟨rest, by simp only [step, fetch, hf, hp, fetchTransaction, hd]⟩)
        | ok i =>
          by_cases hn : notAccepted i s = true
          · cases rest with
            | nil =>
              exact .inl ⟨t, i, s.pending, hd, by
                simp only [step, fetch, hf, hp, fetchTransaction, hd, hn, heldFeed, if_true]; rw [← hp, ← hf]⟩
            | cons e2 rest2 =>
              cases e2 with
              | issue u =>
                exact .inl ⟨t, i, s.pending, hd, by
                  simp only [step, fetch, hf, hp, fetchTransaction, hd, hn, heldFeed, if_true]; rw [← hp, ← hf]⟩
              | withdraw =>
                exact .inr (.inr (.inr ⟨rest2, by
                  simp only [step, fetch, hf, hp, fetchTransaction, hd, hn, heldFeed, if_true]⟩))
              | reset =>
                exact .inr (.inr (.inl ⟨rest2, by
                  simp only [step, fetch, hf, hp, fetchTransaction, hd, hn, heldFeed, if_true]⟩))
          · exact .inl ⟨t, i, rest, hd, by
              simp only [Bool.not_eq_true] at hn
              simp only [step, fetch, hf, hp, fetchTransaction, hd, hn]; rfl⟩

end Sys2Proof.Machine
end

