-- ==== Sys2Proof/Tests/Slice0.lean ====
section
/-! SUPPORT. Tests of the model, their expected values from spec/95_test_vectors.md and the examples of the rules, and
for every obligation with hypotheses a witness that meets them all. -/

namespace Sys2Proof.Tests

open Sys2Proof.Machine Sys2Proof.Claims

/-! ### Small states -/

/-- The frame `R` of spec/95_test_vectors.md: control 53, address 01, payload "REQTIME". -/
def R : List Byte :=
  [0x68#8, 0x09#8, 0x09#8, 0x68#8, 0x53#8, 0x01#8, 0x52#8, 0x45#8, 0x51#8, 0x54#8, 0x49#8, 0x4D#8, 0x45#8, 0x6B#8, 0x16#8]

/-- The payload "REQTIME". -/
def reqtime : List Byte := [0x52#8, 0x45#8, 0x51#8, 0x54#8, 0x49#8, 0x4D#8, 0x45#8]

/-- A channel with buffer `buf`. -/
def chan (buf : List Byte) : Channel := ⟨buf, 0#32, []⟩

/-- Two channels, the first with buffer `buf`. -/
def two (buf : List Byte) : State := ⟨261, [chan buf, chan []], none, [], []⟩

/-- The same inside a FEED on channel 0. -/
def inFeed (buf : List Byte) : State := { two buf with feed := some ⟨0, []⟩ }

/-- The same with a transaction to come. -/
def issued (buf : List Byte) (t : Transaction) (rest : List HostEvent) : State :=
  { two buf with pending := .issue t :: rest }

/-- One channel of one byte, full. -/
def full (pending : List HostEvent) : State := ⟨1, [chan [0x41#8]], none, pending, []⟩

/-- The state after, `s` where the machine stops. -/
def after (s : State) : Result → State
  | .next t => t
  | .fault _ => s
  | .refused _ => s

/-- The status code and data of the last response. -/
def answer (s : State) : Option (Byte × Data) := s.responses.getLast?.map fun r => (r.status.code, r.data)

/-! ### WellFormed: each check refuses an ill-formed term -/

theorem test_wf_encode_256 : (Instr.encode 0x53#8 0x01#8 (List.replicate 256 0#8)).wf = false := by
  simp only [Instr.wf, List.length_replicate]; rfl
theorem test_wf_encode_255 : (Instr.encode 0x53#8 0x01#8 (List.replicate 255 0#8)).wf = true := by
  simp only [Instr.wf, List.length_replicate]; rfl
theorem test_wf_decode_4096 : (Instr.decode (List.replicate 4096 0#8)).wf = false := by
  simp only [Instr.wf, List.length_replicate]; rfl
theorem test_wf_decode_4095 : (Instr.decode (List.replicate 4095 0#8)).wf = true := by
  simp only [Instr.wf, List.length_replicate]; rfl

/-! ### Decoding: every constructor, from words written out in the spec -/

theorem test_decode_feed : decodeHost ⟨0x1268#16, []⟩ = .ok (.feed 2#4 0x68#8) := by decide
theorem test_decode_encode :
    decodeHost ⟨0x2007#16, [0x53#8, 0x01#8, 0x52#8, 0x45#8, 0x51#8, 0x54#8, 0x49#8, 0x4D#8, 0x45#8]⟩ =
      .ok (.encode 0x53#8 0x01#8 reqtime) := by decide
theorem test_decode_decode : decodeHost ⟨0x300F#16, R⟩ = .ok (.decode R) := by decide
theorem test_decode_csrRd : decodeHost ⟨0x4103#16, []⟩ = .ok (.csrRd 1#4 0x03#8) := by decide
theorem test_decode_csrWr :
    decodeHost ⟨0x5000#16, [0xFE#8, 0xFF#8, 0xFF#8, 0x7F#8]⟩ = .ok (.csrWr 0#4 0x00#8 0x7FFFFFFE#32) := by decide
theorem test_sel_rIdle : sel [] = .rIdle := by decide
theorem test_sel_rWaitHdr : sel [0x68#8, 0x09#8, 0x09#8, 0x68#8, 0x53#8] = .rWaitHdr := by decide
theorem test_sel_rResync : sel [0x68#8, 0x05#8, 0x09#8, 0x41#8, 0x0A#8, 0x42#8] = .rResync := by decide
theorem test_sel_rWaitBody : sel (R.take 14) = .rWaitBody := by decide
theorem test_sel_rFrame : sel [0x68#8, 0x02#8, 0x02#8, 0x68#8, 0x00#8, 0x00#8, 0x00#8, 0x16#8] = .rFrame := by decide
theorem test_sel_rLine : sel [0x47#8, 0x45#8, 0x54#8, 0x0A#8, 0x68#8] = .rLine := by decide
theorem test_sel_rWaitLine : sel [0x41#8, 0x42#8, 0x68#8, 0x09#8, 0x09#8] = .rWaitLine := by decide

/-- R241: `L = 0xFF` declares 261 bytes; a sum in 8 bits would take 5. -/
theorem test_sel_no_wrap : sel [0x68#8, 0xFF#8, 0xFF#8, 0x68#8, 0x00#8, 0x00#8] = .rWaitBody := by decide

/-- I1, I2, I3: reserved OP. -/
theorem test_reserved_op : decodeHost ⟨0x0000#16, []⟩ = .error .reservedOp ∧ decodeHost ⟨0x6000#16, []⟩ = .error .reservedOp ∧
    decodeHost ⟨0xF123#16, []⟩ = .error .reservedOp := by decide

/-- I4: bits 11:8 of ENCODE. -/
theorem test_reserved_field : decodeHost ⟨0x2100#16, [0x53#8, 0x01#8]⟩ = .error .reservedField := by decide

/-- I6, I8, I9, I13, I15: operand count. -/
theorem test_operand_count :
    decodeHost ⟨0x2001#16, [0x53#8, 0x01#8]⟩ = .error .operandCount ∧
    decodeHost ⟨0x1068#16, [0x00#8]⟩ = .error .operandCount ∧
    decodeHost ⟨0x3002#16, [0x68#8, 0x68#8, 0x68#8]⟩ = .error .operandCount ∧
    decodeHost ⟨0x4001#16, [0x00#8]⟩ = .error .operandCount ∧
    decodeHost ⟨0x5000#16, [0x01#8, 0x00#8, 0x00#8]⟩ = .error .operandCount := by decide

/-- Opcode-table words: operand bytes above the header, zero above the word's bits; a 24-bit word as a buffer head. -/
theorem test_table_words :
    decodeTableWord 16 0x1068 = some (.feed 0#4 0x68#8) ∧
    decodeTableWord 16 0x2001 = some (.encode 0#8 0#8 [0#8]) ∧
    decodeTableWord 48 0x010000005000 = some (.csrWr 0#4 0x00#8 0x01000000#32) ∧
    decodeTableWord 16 0x6000 = none ∧
    decodeTableWord 24 0x680509 = some .rResync ∧ decodeTableWord 24 0x680909 = some .rWaitBody ∧
    decodeTableWord 24 0x680000 = some .rFrame ∧ decodeTableWord 24 0x410A00 = some .rLine ∧
    decodeTableWord 24 0x414200 = some .rWaitLine := by decide

/-- `step` after `withFetchWord` runs that instruction. -/
theorem test_fetch_word :
    answer (after State.reset (step (State.reset.withFetchWord 16 0x4003))) = some (0x00#8, .value 0x00000105#32) ∧
    (after State.reset (step (State.reset.withFetchWord 24 0x680509))).channels.head?.map Channel.resyncCnt = some 1#32 := by
  decide

/-! ### The instructions -/

/-- R140's example. -/
theorem test_feed_completes_frame :
    answer (after (two (R.take 14)) (exec (.feed 0#4 0x16#8) (two (R.take 14)))) =
      some (0x00#8, .records [[0x00#8, 0x00#8, 0x0F#8, 0x00#8] ++ R]) := by decide

/-- C18: RESYNC_CNT wraps, and one FEED runs R_RESYNC and R_LINE. -/
theorem test_feed_wraps_resync :
    let s : State := ⟨261, [⟨[0x68#8, 0x05#8, 0x09#8, 0x41#8, 0x0A#8], 0xFFFFFFFF#32, []⟩], none, [], []⟩
    (after s (exec (.feed 0#4 0x42#8) s)).channels =
      [⟨[0x42#8], 0#32, [.text [0x05#8, 0x09#8, 0x41#8, 0x0A#8]]⟩] := by decide

/-- P1, statement 1. -/
theorem test_encode_R :
    answer (after (two []) (exec (.encode 0x53#8 0x01#8 reqtime) (two []))) = some (0x00#8, .bytes R) := by decide

/-- I17. -/
theorem test_encode_too_long :
    exec (.encode 0x53#8 0x01#8 (List.replicate 254 0#8)) (two []) =
      .next ⟨261, [chan [], chan []], none, [], [⟨.encodeTooLong, .none⟩]⟩ ∧ Status.encodeTooLong.code = 0x07#8 := by
  simp only [exec, execEncode, List.length_replicate]
  exact ⟨rfl, rfl⟩

/-- R116's example. -/
theorem test_decode_R :
    answer (after (two []) (exec (.decode R) (two []))) = some (0x00#8, .fields ⟨0x53#8, 0x01#8, reqtime⟩) := by decide

/-- The six kinds and their codes, one failing check each (R117 to R122). -/
theorem test_decode_kinds :
    dec [0x68#8] = .error .tooShort ∧ dec (R.set 3 0x69#8) = .error .badStart ∧ dec (R.set 2 0x0A#8) = .error .lengthMismatch ∧
    dec (R ++ [0x00#8]) = .error .sizeMismatch ∧ dec [0x68#8, 0x00#8, 0x00#8, 0x68#8, 0x00#8, 0x16#8] = .error .sizeMismatch ∧
    dec ((R.set 13 0x00#8).set 14 0x17#8) = .error .checksumMismatch ∧ dec (R.set 14 0x17#8) = .error .badEnd := by decide

/-- C6, C7, C8. -/
theorem test_csrRd_status :
    answer (after (two []) (exec (.csrRd 0#4 0x01#8) (two (R.take 5)))) = some (0x00#8, .value 0x00010005#32) ∧
    answer (after (two []) (exec (.csrRd 0#4 0x01#8) (two (R.take 6)))) = some (0x00#8, .value 0x00020006#32) ∧
    answer (after (two []) (exec (.csrRd 0#4 0x01#8) (two [0x61#8, 0x62#8]))) = some (0x00#8, .value 0x00030002#32) := by
  decide

/-- I11, I14. -/
theorem test_csrRd_illegal :
    answer (after (two []) (exec (.csrRd 0#4 0x04#8) (two []))) = some (0x08#8, .none) ∧
    answer (after (two []) (exec (.csrRd 2#4 0x01#8) (two []))) = some (0x08#8, .none) := by decide

/-- C14, C15. -/
theorem test_csrWr_clear :
    (after (two []) (exec (.csrWr 0#4 0x00#8 0xFFFFFFFE#32) (two (R.take 5)))).channels = [chan (R.take 5), chan []] ∧
    (after (two []) (exec (.csrWr 0#4 0x00#8 0xFFFFFFFF#32) (two (R.take 5)))).channels = [chan [], chan []] := by decide

/-- R144, R145, R147, R150: a stop action changes no channel. -/
theorem test_stop_actions :
    (after (two []) (exec .rIdle (inFeed []))).channels = [chan [], chan []] ∧
    (after (two []) (exec .rWaitHdr (inFeed (R.take 5)))).channels = [chan (R.take 5), chan []] ∧
    (after (two []) (exec .rWaitBody (inFeed (R.take 6)))).channels = [chan (R.take 6), chan []] ∧
    (after (two []) (exec .rWaitLine (inFeed [0x41#8]))).channels = [chan [0x41#8], chan []] := by decide

/-- R146's example. -/
theorem test_rResync :
    (after (two []) (exec .rResync (inFeed [0x68#8, 0x05#8, 0x09#8, 0x41#8, 0x0A#8, 0x42#8]))).channels =
      [⟨[0x05#8, 0x09#8, 0x41#8, 0x0A#8, 0x42#8], 1#32, []⟩, chan []] := by decide

/-- R148's example, and T12: `L = 0` takes 6 bytes and fails with SizeMismatch. -/
theorem test_rFrame :
    (after (two []) (exec .rFrame (inFeed [0x68#8, 0x02#8, 0x02#8, 0x68#8, 0x00#8, 0x00#8, 0x00#8, 0x16#8]))).channels =
      [⟨[], 0#32, [.frameOk 0x00#8 0x00#8 [] [0x68#8, 0x02#8, 0x02#8, 0x68#8, 0x00#8, 0x00#8, 0x00#8, 0x16#8]]⟩, chan []] ∧
    (after (two []) (exec .rFrame (inFeed [0x68#8, 0x00#8, 0x00#8, 0x68#8, 0x00#8, 0x00#8, 0x68#8]))).channels =
      [⟨[0x68#8], 0#32, [.frameErr .sizeMismatch [0x68#8, 0x00#8, 0x00#8, 0x68#8, 0x00#8, 0x00#8]]⟩, chan []] := by decide

/-- R149: up to and including the first NL, START bytes inside; T16. -/
theorem test_rLine :
    (after (two []) (exec .rLine (inFeed [0x41#8, 0x68#8, 0x0A#8, 0x42#8, 0x0A#8]))).channels =
      [⟨[0x42#8, 0x0A#8], 0#32, [.text [0x41#8, 0x68#8, 0x0A#8]]⟩, chan []] ∧
    (after (two []) (exec .rLine (inFeed [0x0A#8]))).channels = [⟨[], 0#32, [.text [0x0A#8]]⟩, chan []] := by decide

/-- R95's records (section L2.9). -/
theorem test_unit_records :
    (StreamUnit.frameErr .checksumMismatch [0x68#8, 0x02#8, 0x02#8, 0x68#8, 0x68#8, 0x09#8, 0x09#8, 0x68#8]).record =
      [0x01#8, 0x05#8, 0x08#8, 0x00#8, 0x68#8, 0x02#8, 0x02#8, 0x68#8, 0x68#8, 0x09#8, 0x09#8, 0x68#8] ∧
    (StreamUnit.text (List.replicate 300 0x41#8)).record.take 4 = [0x02#8, 0x00#8, 0x2C#8, 0x01#8] := by
  refine ⟨by decide, ?_⟩
  simp only [StreamUnit.record, StreamUnit.raw, List.length_replicate]
  rfl

/-! ### The host's events -/

/-- P5: a refused FEED stays pending; withdrawn, it leaves no trace; R231: a reset does not perform it. -/
theorem test_refused_feed :
    step (full [.issue ⟨0x100A#16, []⟩]) = .next (full [.issue ⟨0x100A#16, []⟩]) ∧
    step (full [.issue ⟨0x100A#16, []⟩, .withdraw]) = .next (full []) ∧
    step (full [.issue ⟨0x100A#16, []⟩, .reset]) = .next ⟨1, [chan []], none, [], []⟩ := ⟨rfl, rfl, rfl⟩

/-- I7: IllegalOp, and no byte is appended anywhere. -/
theorem test_illegal_transaction :
    step (issued [] ⟨0x1268#16, []⟩ []) = .next ⟨261, [chan [], chan []], none, [], [⟨.illegalOp, .none⟩]⟩ := rfl

/-! ### The assembler -/

/-- R99's example: `FEED 0, 0x68 ; x` assembles to header 1068. -/
theorem test_assemble_feed :
    (assembleLine ['F', 'E', 'E', 'D', ' ', '0', ',', ' ', '0', 'x', '6', '8', ' ', ';', ' ', 'x']).toOption =
      some [.feed 0#4 0x68#8] ∧
    (transactionOf (.feed 0#4 0x68#8)).map (fun t => headerDigits t.header) = some ['1', '0', '6', '8'] := by decide

/-- A string with an escape, and a bracketed list. -/
theorem test_assemble_bytes :
    (assembleLine ['F', 'E', 'E', 'D', 'S', ' ', '1', ',', Char.ofNat 34, 'h', '\\', 'n', Char.ofNat 34]).toOption =
      some [.feed 1#4 0x68#8, .feed 1#4 0x0A#8] ∧
    (assembleLine ['D', 'E', 'C', 'O', 'D', 'E', ' ', '[', '6', '8', ' ', '0', '9', ']']).toOption =
      some [.decode [0x68#8, 0x09#8]] := by decide

/-- R100: CLEAR, and R101: a channel of 16 is an error. -/
theorem test_assemble_clear :
    (assembleLine ['C', 'L', 'E', 'A', 'R', ' ', '1', '5']).toOption = some [.csrWr 15#4 0x00#8 1#32] ∧
    (assembleLine ['C', 'L', 'E', 'A', 'R', ' ', '1', '6']).toOption = none := by decide

/-! ### Witnesses: states and operands that meet an obligation's hypotheses -/

theorem witness_DecodeInvertsEncode :
    (Instr.encode 0#8 0#8 (List.replicate 255 0#8)).wf = true ∧ (Instr.decode (List.replicate 4095 0#8)).wf = true ∧
    Instr.rFrame.wf = true := by
  simp only [Instr.wf, List.length_replicate]
  decide

theorem witness_AcceptedTransactionIsItsEncoding :
    ∃ t i, decodeHost t = .ok i := ⟨⟨0x300F#16, R⟩, _, rfl⟩

theorem witness_IllegalTransactions_none :
    ∃ s' r, (issued [] ⟨0x1168#16, []⟩ []).feed = none ∧ ¬ IllegalTransaction 2 ⟨0x1168#16, []⟩ ∧
      step (issued [] ⟨0x1168#16, []⟩ []) = .next s' ∧ s'.responses = [] ++ [r] :=
  ⟨_, _, rfl, by simp [IllegalTransaction], rfl, rfl⟩

/-- Each condition of R93 at a boundary value, alone. -/
theorem witness_IllegalTransactions_each :
    IllegalTransaction 2 ⟨0x0000#16, []⟩ ∧ IllegalTransaction 2 ⟨0x6000#16, []⟩ ∧
    IllegalTransaction 2 ⟨0x2100#16, [0#8, 0#8]⟩ ∧ IllegalTransaction 2 ⟨0x1200#16, []⟩ ∧
    IllegalTransaction 2 ⟨0x2001#16, [0#8, 0#8]⟩ ∧ IllegalTransaction 2 ⟨0x4104#16, []⟩ := by
  simp [IllegalTransaction]

theorem witness_CsrWrOperandIsLittleEndian : (0x5000#16 : Header).toNat / 4096 = 5 ∧ (0x5FFF#16 : Header).toNat / 4096 = 5 := by
  decide

theorem witness_StepRunsTheDecodedInstruction_transaction :
    ∃ (s : State) (t : Transaction) (rest : List HostEvent) (i : Instr), s.feed = none ∧ s.pending = .issue t :: rest ∧
      decode (.host t) = .ok i ∧ i.wf = true ∧ notAccepted i s = false :=
  ⟨issued [] ⟨0x1041#16, []⟩ [], _, _, .feed 0#4 0x41#8, rfl, rfl, rfl, rfl, rfl⟩

theorem witness_StepRunsTheDecodedInstruction_feed :
    ∃ (s : State) (f : FeedInProgress) (c : Channel), s.feed = some f ∧ s.channels[f.ch]? = some c :=
  ⟨inFeed [0x68#8], _, _, rfl, rfl⟩

theorem witness_StepNeverStops : (two []).FeedOnChannel ∧ (inFeed [0x68#8]).FeedOnChannel := by
  refine ⟨fun f h => ?_, fun f h => ?_⟩
  · cases h
  · cases h; decide

theorem witness_FeedOnFullBufferIsNotAccepted :
    ∃ (s1 s2 : State) (c : Channel) (t : Transaction), s1.channels[(0#4).toNat]? = some c ∧ s2.channels[(0#4).toNat]? = some c ∧
      c.buf.length = s1.bufCap ∧ c.buf.length = s2.bufCap ∧ s1.feed = none ∧ s2.feed = none ∧
      decode (.host t) = .ok (.feed 0#4 0x0A#8) ∧ s1.pending = [.issue t] ∧ ∃ u rest, s2.pending = .issue t :: .issue u :: rest :=
  ⟨full [.issue ⟨0x100A#16, []⟩], full [.issue ⟨0x100A#16, []⟩, .issue ⟨0x4001#16, []⟩], chan [0x41#8], ⟨0x100A#16, []⟩,
    rfl, rfl, rfl, rfl, rfl, rfl, rfl, rfl, _, _, rfl⟩

theorem witness_RefusedFeedIsNotPerformed :
    ∃ (s1 s2 : State) (c : Channel) (t : Transaction), s1.feed = none ∧ s2.feed = none ∧
      decode (.host t) = .ok (.feed 0#4 0x0A#8) ∧ s1.channels[(0#4).toNat]? = some c ∧ s2.channels[(0#4).toNat]? = some c ∧
      c.buf.length = s1.bufCap ∧ c.buf.length = s2.bufCap ∧ s1.pending = [.issue t, .reset] ∧
      s2.pending = [.issue t, .withdraw] :=
  ⟨full [.issue ⟨0x100A#16, []⟩, .reset], full [.issue ⟨0x100A#16, []⟩, .withdraw], chan [0x41#8], ⟨0x100A#16, []⟩,
    rfl, rfl, rfl, rfl, rfl, rfl, rfl, rfl, rfl⟩

/-- For EncodeAnswersTheFrame, DecodeOfEncodeIsTheInputs and EncodeTooLongAnswersNoBytes. -/
theorem witness_Encode : (List.replicate 253 (0#8 : Byte)).length ≤ 253 ∧ 253 < (List.replicate 254 (0#8 : Byte)).length := by
  simp only [List.length_replicate]; decide

/-- Every clause of DecodeAnswersTheFirstFailingCheck: 5 bytes; 6 bytes with a bad offset 0 or 3; unequal copies; a wrong
size; `L = 1`; a wrong checksum; a wrong END; a frame of empty payload that decodes. -/
theorem witness_DecodeAnswersTheFirstFailingCheck :
    (R.take 5).length < 6 ∧ ((R.take 6).set 0 0#8)[0]? ≠ some 0x68#8 ∧ ((R.take 6).set 3 0#8)[3]? ≠ some 0x68#8 ∧
    (6 ≤ (R.take 6).length ∧ (R.take 6)[0]? = some 0x68#8 ∧ (R.take 6)[3]? = some 0x68#8) ∧
    (R.set 2 0#8)[1]? ≠ (R.set 2 0#8)[2]? ∧
    ((R.take 6)[1]? = some 9#8 ∧ (R.take 6)[2]? = some 9#8 ∧ (R.take 6).length ≠ (9#8 : Byte).toNat + 6) ∧ (1#8 : Byte).toNat < 2 ∧
    (∀ k e : Byte, [0x68#8, 2#8, 2#8, 0x68#8, 0#8, 0#8, k, e] = [0x68#8, 2#8, 2#8, 0x68#8, 0#8, 0#8] ++ [] ++ [k, e] ∧
      ([] : List Byte).length + 2 = (2#8 : Byte).toNat) ∧
    (1#8 : Byte).toNat ≠ ((0#8 : Byte).toNat + (0#8 : Byte).toNat + (([] : List Byte).map BitVec.toNat).sum) % 256 ∧
    (0#8 : Byte).toNat = ((0#8 : Byte).toNat + (0#8 : Byte).toNat + (([] : List Byte).map BitVec.toNat).sum) % 256 ∧
    (0x17#8 : Byte) ≠ 0x16#8 := by
  refine ⟨by decide, by decide, by decide, by decide, by decide, by decide, by decide, ?_, by decide, by decide, by decide⟩
  intro k e; exact ⟨rfl, rfl⟩

theorem witness_EncodeOfDecodeIsTheFrame : dec R = .ok ⟨0x53#8, 0x01#8, reqtime⟩ := by decide

/-- One place for each verdict of R128, the first and the last of the range `4 .. 4 + L`. -/
theorem witness_SingleByteCorruptionIsDetected :
    dec R = .ok ⟨0x53#8, 0x01#8, reqtime⟩ ∧ R[1]? = some 9#8 ∧ 5 + (9#8 : Byte).toNat < R.length ∧
    R[0]? ≠ some 0#8 ∧ R[1]? ≠ some 0#8 ∧ R[2]? ≠ some 0#8 ∧ R[3]? ≠ some 0#8 ∧ R[4]? ≠ some 0#8 ∧
    R[4 + (9#8 : Byte).toNat]? ≠ some 0#8 ∧ R[5 + (9#8 : Byte).toNat]? ≠ some 0#8 := by decide

theorem witness_LongInputsNeverDecode : 261 < (List.replicate 262 (0x68#8 : Byte)).length := by
  simp only [List.length_replicate]; decide

theorem witness_StopActionsEndTheFeed :
    (inFeed []).feed = some ⟨0, []⟩ ∧ (inFeed []).channels[0]? = some (chan []) ∧ (chan []).buf.length = 0 ∧
    ((R.take 5)[0]? = some 0x68#8 ∧ (R.take 5).length < 6) ∧
    ((R.take 14)[0]? = some 0x68#8 ∧ 6 ≤ (R.take 14).length ∧ (R.take 14)[1]? = some 9#8 ∧ (R.take 14)[2]? = some 9#8 ∧
      (R.take 14).length < (9#8 : Byte).toNat + 6) ∧
    ([0x41#8, 0x68#8][0]? = some (0x41#8 : Byte) ∧ (0x41#8 : Byte) ≠ 0x68#8 ∧ (0x0A#8 : Byte) ∉ [0x41#8, 0x68#8]) := by decide

theorem witness_ResyncDropsOneStart :
    ∃ (s : State) (f : FeedInProgress) (c : Channel) (l m : Byte) (tail : List Byte), s.feed = some f ∧
      s.channels[f.ch]? = some c ∧ c.buf = 0x68#8 :: l :: m :: tail ∧ l ≠ m ∧ 3 ≤ tail.length :=
  ⟨inFeed [0x68#8, 5#8, 9#8, 0#8, 0#8, 0#8], _, _, 5#8, 9#8, [0#8, 0#8, 0#8], rfl, rfl, rfl, by decide, by decide⟩

/-- `L = 0` at the lower end, whose verdict is an error; `R` decodes. -/
theorem witness_FrameActionEmitsTheVerdict :
    (∃ (s : State) (f : FeedInProgress) (c : Channel) (raw rest : List Byte), s.feed = some f ∧ s.channels[f.ch]? = some c ∧
      c.buf = raw ++ rest ∧ raw[0]? = some 0x68#8 ∧ raw[1]? = some 9#8 ∧ raw[2]? = some 9#8 ∧
      raw.length = (9#8 : Byte).toNat + 6 ∧ dec raw = .ok ⟨0x53#8, 0x01#8, reqtime⟩) ∧
    (∃ (s : State) (f : FeedInProgress) (c : Channel) (raw rest : List Byte), s.feed = some f ∧ s.channels[f.ch]? = some c ∧
      c.buf = raw ++ rest ∧ raw[0]? = some 0x68#8 ∧ raw[1]? = some 0#8 ∧ raw[2]? = some 0#8 ∧
      raw.length = (0#8 : Byte).toNat + 6 ∧ dec raw = .error .sizeMismatch ∧ (0#8 : Byte).toNat < 2) :=
  ⟨⟨inFeed (R ++ [0x41#8]), _, _, R, [0x41#8], rfl, rfl, rfl, rfl, rfl, rfl, rfl, by decide⟩,
   ⟨inFeed ([0x68#8, 0#8, 0#8, 0x68#8, 0#8, 0#8] ++ R), _, _, [0x68#8, 0#8, 0#8, 0x68#8, 0#8, 0#8], R, rfl, rfl, rfl, rfl, rfl, rfl,
     rfl, by decide, by decide⟩⟩

theorem witness_LineActionEmitsTheLine :
    ∃ (s : State) (f : FeedInProgress) (c : Channel) (t rest : List Byte), s.feed = some f ∧ s.channels[f.ch]? = some c ∧
      c.buf = t ++ [0x0A#8] ++ rest ∧ 0x0A#8 ∉ t ∧ c.buf[0]? ≠ some 0x68#8 :=
  ⟨inFeed [0x0A#8, 0x68#8], _, _, [], [0x68#8], rfl, rfl, rfl, by decide, by decide⟩

theorem witness_UnselectedStepActionsStop :
    (two []).feed = none ∧ (inFeed []).feed = some ⟨0, []⟩ ∧ (inFeed []).channels[0]? = some (chan []) ∧
      ¬ HeadRow .rFrame (chan []).buf := by
  refine ⟨rfl, rfl, rfl, ?_⟩
  simp [HeadRow, chan]

/-- For FeedAppendsAndDrains and FeedIsItsStepActionsOneByOne: channel 15 of 16, one byte short of full. -/
theorem witness_FeedAppendsAndDrains :
    ∃ (s : State) (c : Channel), s.channels[(15#4).toNat]? = some c ∧ c.buf.length ≠ s.bufCap ∧ c.buf.length + 1 = s.bufCap :=
  ⟨⟨2, List.replicate 16 (chan [0x41#8]), none, [], []⟩, chan [0x41#8], rfl, by decide, by decide⟩

/-- For DrainHasOneResult and DrainEmitsAtMostItsBuffer. -/
theorem witness_DrainHasOneResult :
    DrainRun (chan [0x0A#8]) [.text [0x0A#8]] ⟨[], 0#32, [.text [0x0A#8]]⟩ :=
  .line _ _ _ [] [] (by decide) rfl (by decide) (.stop _ (by decide))

theorem witness_DrainTerminatesWithinItsFuel :
    ∃ (s : State) (f : FeedInProgress) (c : Channel) (n : Nat), s.feed = some f ∧ s.channels[f.ch]? = some c ∧
      c.buf.length + 1 ≤ n :=
  ⟨inFeed R, _, _, 16, rfl, rfl, by decide⟩

theorem witness_FeedLeavesTheChannelQuiescent :
    ∃ (s t : State) (c : Channel), s.channels[(0#4).toNat]? = some c ∧ c.buf.length ≠ s.bufCap ∧
      exec (.feed 0#4 0x68#8) s = .next t :=
  ⟨two [], _, _, rfl, by decide, rfl⟩

/-- A resync drop and two lines. -/
theorem witness_FedBytesAreConserved :
    ∃ (s t : State) (c : Channel), s.channels[(0#4).toNat]? = some c ∧
      feedAll 0#4 [0x41#8, 0x0A#8] s = some t :=
  ⟨two [0x68#8, 0x05#8, 0x09#8, 0x0A#8], _, _, rfl, rfl⟩

/-- Chunks of two, none and one bytes. -/
theorem witness_ChunkingChangesNothing :
    ∃ (s t : State) (c : Channel), s.channels[(0#4).toNat]? = some c ∧ stopAction (sel c.buf) = true ∧
      feedAll 0#4 [[0x41#8, 0x0A#8], [], [0x42#8]].flatten s = some t :=
  ⟨two [0x68#8, 0x05#8, 0x09#8, 0x0A#8], _, _, rfl, by decide, rfl⟩

theorem witness_EncodedFrameIsReassembled :
    ∃ (s : State) (c : Channel) (payload : List Byte), s.channels[(0#4).toNat]? = some c ∧ c.buf = [] ∧ 261 ≤ s.bufCap ∧
      payload.length ≤ 253 :=
  ⟨two [], _, List.replicate 253 0#8, rfl, rfl, by decide, by simp only [List.length_replicate]; decide⟩

theorem witness_TextAbsorbsUntilNewline :
    ∃ (s : State) (h : Byte) (c : Channel), s.channels[(0#4).toNat]? = some c ∧ c.buf.length ≠ s.bufCap ∧
      c.buf[0]? = some h ∧ h ≠ 0x68#8 ∧ 0x0A#8 ∉ c.buf :=
  ⟨two [0x69#8, 0x68#8], 0x69#8, _, rfl, by decide, rfl, by decide, by decide⟩

theorem witness_ShortStartBufferWaits :
    ∃ (s : State) (c : Channel), s.channels[(0#4).toNat]? = some c ∧ c.buf.length ≠ s.bufCap ∧
      c.buf[0]? = some 0x68#8 ∧ c.buf.length < 5 :=
  ⟨two (R.take 4), _, rfl, by decide, rfl, by decide⟩

/-- A START-headed buffer of 260 bytes, and 261 bytes of text. -/
theorem witness_OnlyTextFillsABuffer :
    stopAction (sel ([0x68#8, 0xFF#8, 0xFF#8] ++ List.replicate 257 0#8)) = true ∧
    stopAction (sel (List.replicate 261 0x41#8)) = true ∧ (List.replicate 261 (0x41#8 : Byte)).length = 261 := by
  refine ⟨?_, ?_, List.length_replicate⟩
  · have hl : ([0x68#8, 0xFF#8, 0xFF#8] ++ List.replicate 257 (0#8 : Byte)).length = 260 := by
      rw [List.length_append, List.length_replicate]; rfl
    rw [sel, if_neg (by rw [hl]; decide), if_pos (by rfl), if_neg (by rw [hl]; decide), if_neg (by exact fun h => h rfl),
      if_pos (by rw [hl]; exact (by decide : 260 < frameLen 0xFF#8))]
    rfl
  · rw [sel, if_neg (by rw [List.length_replicate]; decide), if_neg (by show ¬ (0x41#8 = Config.START); decide),
      if_neg (by rw [List.mem_replicate]; decide)]
    rfl

theorem witness_StepKeepsTheInvariant : ∃ s s' : State, s.Inv ∧ step s = .next s' := by
  refine ⟨issued (R.take 5) ⟨0x1001#16, []⟩ [], _, ⟨by decide, by decide, by decide, by decide, rfl, by decide, ?_⟩, rfl⟩
  simp only [issued, two, List.mem_cons, List.not_mem_nil, or_false]
  rintro c (rfl | rfl) <;> (unfold Quiescent; decide)

theorem witness_EmittedUnitsAreLegal : ∃ s s' : State, s.UnitsLegal ∧ step s = .next s' := by
  refine ⟨⟨261, [⟨[], 0#32, [.text [0x0A#8]]⟩], none, [.reset], []⟩, _, ?_, rfl⟩
  simp only [State.UnitsLegal, List.mem_cons, List.not_mem_nil, or_false, forall_eq, StreamUnit.Legal]
  exact ⟨by decide, [], rfl, by decide⟩

theorem witness_UnitsAreAppendOnly :
    ∃ (s s' : State) (c : Channel), step s = .next s' ∧ s.channels[1]? = some c :=
  ⟨⟨261, [chan [], ⟨[], 0#32, [.text [0x0A#8]]⟩], none, [.reset], []⟩, _, _, rfl, rfl⟩

theorem witness_ExecKeepsParametersAndQueue : ∃ t, exec .rLine (inFeed [0x0A#8]) = .next t := ⟨_, rfl⟩

theorem witness_ErrorsHaveNoOtherEffect :
    ∃ (t : State) (r : Response), exec (.decode []) (two R) = .next t ∧ t.responses = (two R).responses ++ [r] ∧
      r.status ≠ .ok := ⟨_, _, rfl, rfl, by decide⟩

theorem witness_OtherChannelsAreUntouched :
    ∃ t, exec (.feed 0#4 0x41#8) (two []) = .next t ∧ actsOn (.feed 0#4 0x41#8) (two []) ≠ some 1 := ⟨_, rfl, by decide⟩

/-- Two states that differ in channel 1. -/
theorem witness_OtherChannelsAreNotRead :
    ∃ s1 s2 t1 : State, s1.bufCap = s2.bufCap ∧ s1.channels.length = s2.channels.length ∧ s1.feed = s2.feed ∧
      s1.channels[0]? = s2.channels[0]? ∧ s1.channels[1]? ≠ s2.channels[1]? ∧ actsOn (.feed 0#4 0x41#8) s1 = some 0 ∧
      exec (.feed 0#4 0x41#8) s1 = .next t1 :=
  ⟨two [], ⟨261, [chan [], chan [0x68#8]], none, [], []⟩, _, rfl, rfl, rfl, rfl, by decide, rfl, rfl⟩

theorem witness_OnlyTheseWriteAChannel :
    ∃ (t : State) (c c' : Channel), exec .rResync (inFeed [0x68#8, 5#8, 9#8, 0#8, 0#8, 0#8]) = .next t ∧
      (inFeed [0x68#8, 5#8, 9#8, 0#8, 0#8, 0#8]).channels[0]? = some c ∧ t.channels[0]? = some c' ∧
      c'.resyncCnt ≠ c.resyncCnt ∧ c'.buf ≠ c.buf := ⟨_, _, _, rfl, rfl, rfl, by decide, by decide⟩

/-- A full buffer and one that is not. -/
theorem witness_CsrsReadAndIgnoreWrites :
    ((full []).channels[(0#4).toNat]? = some (chan [0x41#8]) ∧ (chan [0x41#8]).buf.length ≤ (full []).bufCap ∧
      (full []).bufCap ≤ 65535) ∧
    ((two []).channels[(1#4).toNat]? = some (chan []) ∧ (chan []).buf.length ≤ (two []).bufCap ∧ (two []).bufCap ≤ 65535) := by
  decide

theorem witness_HeadStateHasItsFourCases :
    ([] : List Byte).length = 0 ∧ ((R.take 5)[0]? = some 0x68#8 ∧ (R.take 5).length < 6) ∧
    ((R.take 6)[0]? = some 0x68#8 ∧ 6 ≤ (R.take 6).length ∧ (R.take 6)[1]? = some 9#8 ∧ (R.take 6)[2]? = some 9#8 ∧
      (R.take 6).length < (9#8 : Byte).toNat + 6) ∧
    ([0x41#8][0]? = some (0x41#8 : Byte) ∧ (0x41#8 : Byte) ≠ 0x68#8 ∧ (0x0A#8 : Byte) ∉ [0x41#8]) := by decide

/-- Bit 0 set with every other bit set, and bit 0 clear with every other bit set. -/
theorem witness_ClearDiscardsOneChannel :
    (two R).channels[(0#4).toNat]? = some (chan R) ∧ (0xFFFFFFFF#32 : Word).toNat % 2 = 1 ∧
      (0xFFFFFFFE#32 : Word).toNat % 2 = 0 := by decide

theorem witness_UnassignedCsrIsIllegalOp : 4 ≤ (0x04#8 : Byte).toNat ∧ 4 ≤ (0xFF#8 : Byte).toNat := by decide

theorem witness_AbsentChannelIsIllegalOp : (two []).channels.length ≤ (2#4 : BitVec 4).toNat := by decide

theorem witness_ResetPutsEveryChannelFresh :
    ∃ (s : State) (rest : List HostEvent) (c : Channel), s.feed = none ∧ s.pending = .reset :: rest ∧ 261 ≤ s.bufCap ∧
      s.bufCap ≤ 65535 ∧ s.channels[(1#4).toNat]? = some c :=
  ⟨⟨65535, [chan R, ⟨R, 7#32, [.text [0x0A#8]]⟩], none, [.reset], []⟩, _, _, rfl, rfl, by decide, by decide, rfl⟩

/-- Each kind of unit, legal. -/
theorem witness_UnitRecordHasItsLayout :
    (StreamUnit.frameOk 0x53#8 0x01#8 reqtime R).Legal ∧
    (StreamUnit.frameErr .badEnd (R.set 14 0x17#8)).Legal ∧
    (StreamUnit.frameErr .badEnd (R.set 14 0x17#8)).raw.length ≤ 65535 := by
  refine ⟨?_, ⟨?_, .inr (.inr (.inr rfl))⟩, by decide⟩
  · show dec R = .ok ⟨0x53#8, 0x01#8, reqtime⟩
    decide
  · decide

theorem witness_PseudoInstructionsExpand :
    15 < 16 ∧ (List.replicate 255 (0#8 : Byte)).length ≤ 255 ∧ (List.replicate 253 (0#8 : Byte)).length ≤ 253 ∧
      253 < (List.replicate 254 (0#8 : Byte)).length := by
  simp only [List.length_replicate]; decide

theorem witness_AssemblerChecksItsRanges : (∃ b ∈ [255, 256], 256 ≤ b) ∧ 255 < (List.replicate 256 0).length ∧ 16 ≤ 16 := by
  simp only [List.length_replicate]; decide

/-- An empty buffer, and a START-headed one that a FEED of NL makes two lines of. -/
theorem witness_FeedAnswersAtMostItsBuffer :
    ∃ (s1 s2 : State) (c1 c2 : Channel), s1.channels[(15#4).toNat]? = some c1 ∧ c1.buf.length < s1.bufCap ∧
      c1.buf = [] ∧ s2.channels[(0#4).toNat]? = some c2 ∧ c2.buf.length < s2.bufCap ∧ c2.buf.length + 1 = s2.bufCap :=
  ⟨⟨1, List.replicate 16 (chan []), none, [], []⟩,
    ⟨6, [chan [0x68#8, 0x05#8, 0x09#8, 0x0A#8, 0x41#8]], none, [], []⟩, chan [], chan [0x68#8, 0x05#8, 0x09#8, 0x0A#8, 0x41#8],
    rfl, by decide, rfl, rfl, by decide, by decide⟩

end Sys2Proof.Tests
end

section
/-! SUPPORT. The state a finished FEED leaves, field by field, and what DRAIN does to the buffer's length. -/

namespace Sys2Proof.Machine

section FedStateFields
variable (s : State) (f : FeedInProgress) (us : List StreamUnit) (c : Channel)

@[simp] theorem fedState_bufCap : (fedState s f us c).bufCap = s.bufCap := rfl
@[simp] theorem fedState_channels : (fedState s f us c).channels = s.channels.set f.ch c := rfl
@[simp] theorem fedState_feed : (fedState s f us c).feed = none := rfl
@[simp] theorem fedState_pending : (fedState s f us c).pending = s.pending := rfl
@[simp] theorem fedState_responses : (fedState s f us c).responses =
    s.responses ++ [⟨.ok, .records ((f.units ++ us).map StreamUnit.record)⟩] := rfl

end FedStateFields

/-- DRAIN only takes bytes out of the buffer (R142). -/
theorem DrainRun.length_le {c c' : Channel} {us : List StreamUnit} (h : DrainRun c us c') :
    c'.buf.length ≤ c.buf.length := by
  induction h with
  | stop => exact le_rfl
  | resync _ _ _ _ _ ih => exact ih.trans (List.drop_sublist _ _).length_le
  | frameOk _ _ _ _ _ _ _ ih => exact ih.trans (List.drop_sublist _ _).length_le
  | frameErr _ _ _ _ _ _ _ ih => exact ih.trans (List.drop_sublist _ _).length_le
  | line _ _ _ t rest _ hb _ _ ih =>
    refine ih.trans ?_
    simp only [hb, List.length_append, List.length_cons]
    omega

/-- An empty buffer waits for its first byte (R144). -/
theorem quiescent_nil : Quiescent [] := by
  unfold Quiescent
  decide

end Sys2Proof.Machine
end

section
/-! CLAIM. O40: what no instruction changes. -/

namespace Sys2Proof.Machine

/-- A step action leaves the parameters and the queue, and only a stop action answers (R142, R144 to R150). -/
theorem stepAction_keeps_parameters_and_queue {i : Instr} {s t : State} (h : runAction i s = .next t) :
    t.bufCap = s.bufCap ∧ t.channels.length = s.channels.length ∧ t.pending = s.pending ∧
    (t.responses = s.responses ∨ ∃ r, t.responses = s.responses ++ [r]) := by
  obtain ⟨f, c, -, -, -, ⟨-, rfl⟩ | ⟨-, rfl⟩ | ⟨-, rfl⟩ | ⟨-, rfl⟩⟩ := stepAction_cases h
  · simp
  · simp
  · simp
  · simp

/-- Settles O40: by what an instruction can do, and for the step actions by what those can do. -/
theorem execKeepsParametersAndQueue : Obligations.ExecKeepsParametersAndQueue := by
  intro i s t h
  rcases exec_cases h with ⟨_, _, -, rfl⟩ | ⟨_, _, _, _, _, -, -, -, -, rfl⟩ | ⟨_, -, rfl⟩ | ⟨_, rfl⟩ |
    ⟨_, _, _, -, -, -, rfl⟩ | hact
  · simp
  · simp
  · simp
  · simp
  · simp
  · exact stepAction_keeps_parameters_and_queue hact

end Sys2Proof.Machine
end

section
/-! CLAIM. O37: the invariant between transactions. `Inv` speaks of BUF_CAP, the channels and the FEED in progress only,
so a step keeps it when every channel it leaves behind fits BUF_CAP and is quiescent. -/

namespace Sys2Proof.Machine

/-- Between transactions no FEED is in progress (R40). -/
theorem State.Inv.feed_ne_some {s : State} (h : s.Inv) (f : FeedInProgress) : s.feed ≠ some f := by
  simp [h.idle]

/-- The invariant of a state with the parameters of `s`, nothing in flight, and every channel fitting and quiescent. -/
theorem State.Inv.of_channels {s t : State} (h : s.Inv) (hcap : t.bufCap = s.bufCap)
    (hlen : t.channels.length = s.channels.length) (hfeed : t.feed = none)
    (hch : ∀ c ∈ t.channels, c.buf.length ≤ s.bufCap ∧ Quiescent c.buf) : t.Inv where
  capLow := hcap ▸ h.capLow
  capHigh := hcap ▸ h.capHigh
  someChannel := hlen ▸ h.someChannel
  atMost16 := hlen ▸ h.atMost16
  idle := hfeed
  fits := fun c hc => hcap ▸ (hch c hc).1
  quiet := fun c hc => (hch c hc).2

/-- The queue and the responses are no part of the invariant. -/
theorem State.Inv.of_same_channels {s t : State} (h : s.Inv) (hcap : t.bufCap = s.bufCap)
    (hch : t.channels = s.channels) (hfeed : t.feed = none) : t.Inv :=
  h.of_channels hcap (by rw [hch]) hfeed fun c hc => ⟨h.fits c (hch ▸ hc), h.quiet c (hch ▸ hc)⟩

/-- One channel replaced by a fitting, quiescent one. -/
theorem State.Inv.of_set_channel {s t : State} {n : Nat} {c' : Channel} (h : s.Inv) (hcap : t.bufCap = s.bufCap)
    (hch : t.channels = s.channels.set n c') (hfeed : t.feed = none)
    (hfit : c'.buf.length ≤ s.bufCap) (hquiet : Quiescent c'.buf) : t.Inv := by
  refine h.of_channels hcap (by rw [hch, List.length_set]) hfeed fun c hc => ?_
  rw [hch] at hc
  rcases List.mem_or_eq_of_mem_set hc with hold | rfl
  · exact ⟨h.fits c hold, h.quiet c hold⟩
  · exact ⟨hfit, hquiet⟩

/-- Reset leaves every buffer empty (R230, R233). -/
theorem State.Inv.of_resetChannels {s : State} (h : s.Inv) : s.resetChannels.Inv := by
  refine h.of_channels rfl (by simp) rfl fun c hc => ?_
  rw [State.resetChannels_channels, List.mem_map] at hc
  obtain ⟨c₀, -, rfl⟩ := hc
  exact ⟨Nat.zero_le _, quiescent_nil⟩

/-- An accepted FEED: the byte still fits, DRAIN takes bytes out only and ends quiescent (R35, R141, R153). -/
theorem State.Inv.of_accepted_feed {s : State} {n : Nat} {b : Byte} {c c' : Channel} {us : List StreamUnit} (h : s.Inv)
    (hc : s.channels[n]? = some c) (haccepted : c.buf.length ≠ s.bufCap)
    (hrun : DrainRun { c with buf := c.buf ++ [b] } us c') : (fedState s ⟨n, []⟩ us c').Inv := by
  have hfit : c.buf.length ≤ s.bufCap := h.fits c (List.mem_of_getElem? hc)
  have hshorter : c'.buf.length ≤ c.buf.length + 1 := by simpa using hrun.length_le
  exact h.of_set_channel rfl rfl rfl (by omega) hrun.quiescent

/-- Every instruction keeps the invariant; a step action has no FEED to act on (R40). -/
theorem State.Inv.of_exec {i : Instr} {s t : State} (h : s.Inv) (he : exec i s = .next t) : t.Inv := by
  rcases exec_cases he with ⟨_, _, -, rfl⟩ | ⟨_, _, c, _, _, -, hc, haccepted, hrun, rfl⟩ | ⟨_, -, rfl⟩ | ⟨_, rfl⟩ |
    ⟨_, _, c, -, -, -, rfl⟩ | hact
  · exact h
  · exact h.of_accepted_feed hc haccepted hrun
  · exact h.of_same_channels rfl rfl h.idle
  · exact h.of_same_channels rfl rfl h.idle
  · exact h.of_set_channel rfl rfl h.idle (Nat.zero_le _) quiescent_nil
  · obtain ⟨f, -, hf, -⟩ := stepAction_cases hact
    exact absurd hf (h.feed_ne_some f)

/-- Settles O37: nothing is in flight, so the step is a transaction, a reset, or an event that only leaves the queue. -/
theorem stepKeepsTheInvariant : Obligations.StepKeepsTheInvariant := by
  intro s s' h hstep
  have hqueue (q : List HostEvent) : ({ s with pending := q } : State).Inv := h.of_same_channels rfl rfl h.idle
  rcases step_cases s with ⟨f, hf, -⟩ | ⟨-, ⟨_, i, q, -, he⟩ | ⟨q, he⟩ | ⟨q, he⟩ | ⟨q, he⟩⟩
  · exact absurd hf (h.feed_ne_some f)
  · exact (hqueue q).of_exec (he.symm.trans hstep)
  · obtain rfl : _ = s' := Host.Outcome.next.inj (he.symm.trans hstep)
    exact h.of_same_channels rfl rfl h.idle
  · obtain rfl : _ = s' := Host.Outcome.next.inj (he.symm.trans hstep)
    exact (hqueue q).of_resetChannels
  · obtain rfl : _ = s' := Host.Outcome.next.inj (he.symm.trans hstep)
    exact hqueue q

end Sys2Proof.Machine
end

section
/-! SUPPORT. DRAIN has one result, so a FEED does what any run of DRAIN does; the CSR instructions, by channel and index. -/

namespace Sys2Proof.Machine

open Claims

section DrainRunInversion
variable {c c' : Channel} {us : List StreamUnit}

/-- A stop action ends DRAIN at once. -/
theorem DrainRun.of_stop (h : DrainRun c us c') (hs : stopAction (sel c.buf) = true) : us = [] ∧ c' = c := by
  cases h with
  | stop => exact ⟨rfl, rfl⟩
  | resync _ _ _ h => simp [h, stopAction] at hs
  | frameOk _ _ _ _ h => simp [h, stopAction] at hs
  | frameErr _ _ _ _ h => simp [h, stopAction] at hs
  | line _ _ _ _ _ h => simp [h, stopAction] at hs

/-- DRAIN goes on after R_RESYNC (R146). -/
theorem DrainRun.of_resync (h : DrainRun c us c') (hs : sel c.buf = .rResync) :
    DrainRun ⟨c.buf.drop 1, c.resyncCnt + 1#32, c.units⟩ us c' := by
  cases h with
  | resync _ _ _ _ rest => exact rest
  | stop _ h => simp [hs, stopAction] at h
  | frameOk _ _ _ _ h => simp [hs] at h
  | frameErr _ _ _ _ h => simp [hs] at h
  | line _ _ _ _ _ h => simp [hs] at h

/-- DRAIN goes on after R_FRAME, whatever the verdict (R148). -/
theorem DrainRun.of_frame (h : DrainRun c us c') (hs : sel c.buf = .rFrame) :
    ∃ us', us = frameUnit (c.buf.take (frameLen (byteAt c.buf 1))) :: us' ∧
      DrainRun ⟨c.buf.drop (frameLen (byteAt c.buf 1)), c.resyncCnt,
        c.units ++ [frameUnit (c.buf.take (frameLen (byteAt c.buf 1)))]⟩ us' c' := by
  cases h with
  | frameOk _ _ us' _ _ hd rest => rw [frameUnit_ok hd]; exact ⟨us', rfl, rest⟩
  | frameErr _ _ us' _ _ hd rest => rw [frameUnit_error hd]; exact ⟨us', rfl, rest⟩
  | stop _ h => simp [hs, stopAction] at h
  | resync _ _ _ h => simp [hs] at h
  | line _ _ _ _ _ h => simp [hs] at h

/-- The first NL cuts a sequence in one way. -/
theorem firstLine_unique {t₁ t₂ rest₁ rest₂ : List Byte} (h : t₁ ++ Config.NL :: rest₁ = t₂ ++ Config.NL :: rest₂)
    (h₁ : Config.NL ∉ t₁) (h₂ : Config.NL ∉ t₂) : t₁ = t₂ ∧ rest₁ = rest₂ := by
  have hlen : t₁.length = t₂.length := by
    simpa [List.idxOf_append_of_notMem h₁, List.idxOf_append_of_notMem h₂] using
      congrArg (List.idxOf Config.NL) h
  simpa using List.append_inj h hlen

/-- DRAIN goes on after R_LINE (R149). -/
theorem DrainRun.of_line {t rest : List Byte} (h : DrainRun c us c') (hs : sel c.buf = .rLine)
    (hb : c.buf = t ++ Config.NL :: rest) (ht : Config.NL ∉ t) :
    ∃ us', us = .text (t ++ [Config.NL]) :: us' ∧
      DrainRun ⟨rest, c.resyncCnt, c.units ++ [.text (t ++ [Config.NL])]⟩ us' c' := by
  cases h with
  | line _ _ us' t' rest' _ hb' ht' go =>
    obtain ⟨rfl, rfl⟩ := firstLine_unique (hb.symm.trans hb') ht ht'
    exact ⟨us', rfl, go⟩
  | stop _ h => simp [hs, stopAction] at h
  | resync _ _ _ h => simp [hs] at h
  | frameOk _ _ _ _ h => simp [hs] at h
  | frameErr _ _ _ _ h => simp [hs] at h

/-- DRAIN has one result (R97, R142). -/
theorem DrainRun.unique (h₁ : DrainRun c us c') {us₂ : List StreamUnit} {c₂ : Channel} (h₂ : DrainRun c us₂ c₂) :
    us = us₂ ∧ c' = c₂ := by
  induction h₁ generalizing us₂ c₂ with
  | stop c hs =>
    obtain ⟨rfl, rfl⟩ := h₂.of_stop hs
    exact ⟨rfl, rfl⟩
  | resync c c' us hs _ ih => exact ih (h₂.of_resync hs)
  | frameOk c c' us d hs hd _ ih =>
    obtain ⟨us', rfl, hrest⟩ := h₂.of_frame hs
    rw [frameUnit_ok hd] at hrest ⊢
    obtain ⟨rfl, rfl⟩ := ih hrest
    exact ⟨rfl, rfl⟩
  | frameErr c c' us k hs hd _ ih =>
    obtain ⟨us', rfl, hrest⟩ := h₂.of_frame hs
    rw [frameUnit_error hd] at hrest ⊢
    obtain ⟨rfl, rfl⟩ := ih hrest
    exact ⟨rfl, rfl⟩
  | line c c' us t rest hs hb ht _ ih =>
    obtain ⟨us', rfl, hrest⟩ := h₂.of_line hs hb ht
    obtain ⟨rfl, rfl⟩ := ih hrest
    exact ⟨rfl, rfl⟩

end DrainRunInversion

section Feed
variable {ch : BitVec 4} {b : Byte} {c c' : Channel} {us : List StreamUnit} {s : State}

/-- FEED to a channel the block does not have (R93). -/
theorem execFeed_absent (hc : s.channels[ch.toNat]? = none) : execFeed ch b s = .next (s.raise .illegalOp) :=
  onChannel_none _ hc

/-- FEED to a full buffer (R141). -/
theorem execFeed_full (hc : s.channels[ch.toNat]? = some c) (hfull : c.buf.length = s.bufCap) :
    execFeed ch b s = .next s := by
  simp [execFeed, onChannel_some _ hc, hfull]

/-- An accepted FEED, by the run of DRAIN after the append (R140). -/
theorem execFeed_accepted (hc : s.channels[ch.toNat]? = some c) (haccepted : c.buf.length ≠ s.bufCap)
    (hrun : DrainRun { c with buf := c.buf ++ [b] } us c') :
    execFeed ch b s = .next (fedState s ⟨ch.toNat, []⟩ us c') := by
  obtain ⟨us₂, c₂, hrun₂, he⟩ := feedChunk_spec [b] hc
  obtain ⟨rfl, rfl⟩ := hrun.unique hrun₂
  simp [execFeed, onChannel_some _ hc, haccepted, he]

end Feed

section Csr
variable {ch : BitVec 4} {k : Byte} {c : Channel} {r : Csr} {s : State}

/-- A CSR access is illegal, or has a channel and a register (R48, R93). -/
theorem csrAccess_cases (ch : BitVec 4) (k : Byte) (s : State) : (s.channels[ch.toNat]? = none ∨ csrOf k = none) ∨
    ∃ c r, s.channels[ch.toNat]? = some c ∧ csrOf k = some r := by
  cases hc : s.channels[ch.toNat]? with
  | none => exact .inl (.inl rfl)
  | some c =>
    cases hk : csrOf k with
    | none => exact .inl (.inr rfl)
    | some r => exact .inr ⟨c, r, rfl, rfl⟩

/-- CSR_RD of an assigned index (R180). -/
theorem csrRd_answers (hc : s.channels[ch.toNat]? = some c) (hk : csrOf k = some r) :
    exec (.csrRd ch k) s = .next (answered s .ok (.value (csrValue s.bufCap c r))) := by
  rw [exec, execCsrRd, onChannel_some _ hc, hk]
  rfl

/-- CSR_WR of an assigned index (R181). -/
theorem csrWr_answers (v : Word) (hc : s.channels[ch.toNat]? = some c) (hk : csrOf k = some r) :
    exec (.csrWr ch k v) s = .next (answered (s.setChannel ch.toNat (csrWritten c v r)) .ok .none) := by
  rw [exec, execCsrWr, onChannel_some _ hc, hk]
  rfl

/-- CSR_WR that leaves the channel as it is only answers (R183). -/
theorem csrWr_ignored (v : Word) (hc : s.channels[ch.toNat]? = some c) (hk : csrOf k = some r)
    (hw : csrWritten c v r = c) : exec (.csrWr ch k v) s = .next (answered s .ok .none) := by
  rw [csrWr_answers v hc hk, hw, setChannel_self hc]

/-- CSR_RD of a channel the block does not have, or of an unassigned index (R48, R93). -/
theorem csrRd_illegal (h : s.channels[ch.toNat]? = none ∨ csrOf k = none) :
    exec (.csrRd ch k) s = .next (s.raise .illegalOp) := by
  rcases execCsrRd_cases ch k s with he | ⟨c, r, hc, hk, -⟩
  · exact he
  · simp [hc, hk] at h

/-- The same of CSR_WR (R48, R93). -/
theorem csrWr_illegal (v : Word) (h : s.channels[ch.toNat]? = none ∨ csrOf k = none) :
    exec (.csrWr ch k v) s = .next (s.raise .illegalOp) := by
  rcases execCsrWr_cases ch k v s with he | ⟨c, r, hc, hk, -⟩
  · exact he
  · simp [hc, hk] at h

end Csr

end Sys2Proof.Machine
end


section
/-! CLAIM. O36, O46: the state after reset, and the shapes of a quiescent buffer (R36, R159). -/

namespace Sys2Proof.Machine

open Claims

/-- Settles O36: the parameters are literals, and every channel of State.reset is the fresh one. -/
theorem resetMeetsTheInvariant : Obligations.ResetMeetsTheInvariant := by
  have hfresh : ∀ c ∈ State.reset.channels, c = ⟨[], 0#32, []⟩ := fun c hc => List.eq_of_mem_replicate hc
  refine ⟨⟨by decide, by decide, by decide, by decide, rfl, fun c hc => ?_, fun c hc => ?_⟩, hfresh⟩
  · rw [hfresh c hc]
    exact Nat.zero_le _
  · rw [hfresh c hc]
    exact quiescent_nil

section QuiescentHeads
variable {buf : List Byte} {l h : Byte}

/-- Nothing held (R36, R143). -/
theorem sel_and_headState_of_empty (hlen : buf.length = 0) : sel buf = .rIdle ∧ headState buf = 0#2 := by
  simp [sel, headState, hlen]

/-- START and fewer than 6 bytes (R36, R143). -/
theorem sel_and_headState_of_shortStart (h0 : buf[0]? = some 0x68#8) (hlen : buf.length < 6) :
    sel buf = .rWaitHdr ∧ headState buf = 1#2 := by
  have hpos : buf.length ≠ 0 := by rintro hnil; simp_all
  simp [sel, headState, byteAt_of_getElem? h0, hpos, hlen]

/-- START, agreeing length copies and fewer than `L + 6` bytes (R36, R143). -/
theorem sel_and_headState_of_partialFrame (h0 : buf[0]? = some 0x68#8) (h6 : 6 ≤ buf.length) (h1 : buf[1]? = some l)
    (h2 : buf[2]? = some l) (hlen : buf.length < l.toNat + 6) : sel buf = .rWaitBody ∧ headState buf = 2#2 := by
  have hpos : buf.length ≠ 0 := by omega
  have hlong : ¬ buf.length < 6 := by omega
  simp [sel, headState, byteAt_of_getElem? h0, byteAt_of_getElem? h1, byteAt_of_getElem? h2, hpos, hlong, frameLen, hlen]

/-- Text without NL (R36, R143). -/
theorem sel_and_headState_of_text (h0 : buf[0]? = some h) (hhead : h ≠ 0x68#8) (hnl : 0x0A#8 ∉ buf) :
    sel buf = .rWaitLine ∧ headState buf = 3#2 := by
  have hpos : buf.length ≠ 0 := by rintro hnil; simp_all
  simp [sel, headState, byteAt_of_getElem? h0, hpos, hhead, hnl]

/-- A quiescent buffer has one of the four shapes (R159). -/
theorem quiescentShape_of_quiescent (hq : Quiescent buf) : QuiescentShape buf := by
  rcases sel_cases buf with ⟨hs, hlen⟩ | ⟨hs, hpos, h0, hlen⟩ | ⟨hs, -⟩ | ⟨hs, h6, h0, h12, hlen⟩ | ⟨hs, -⟩ | ⟨hs, -⟩ |
    ⟨hs, hpos, h0, hnl⟩
  · exact .inl (List.length_eq_zero_iff.mp hlen)
  · exact .inr (.inl ⟨(getElem?_eq_byteAt hpos).trans (congrArg some h0), hlen⟩)
  · simp [Quiescent, hs, stopAction] at hq
  · have hread {n : Nat} (hn : n < 6) : buf[n]? = some (byteAt buf n) := getElem?_eq_byteAt (by omega)
    exact .inr (.inr (.inl ⟨(hread (by decide)).trans (congrArg some h0), _, hread (by decide),
      (hread (by decide)).trans (congrArg some h12.symm), hlen⟩))
  · simp [Quiescent, hs, stopAction] at hq
  · simp [Quiescent, hs, stopAction] at hq
  · exact .inr (.inr (.inr ⟨_, getElem?_eq_byteAt hpos, h0, hnl⟩))

/-- Each of the four shapes selects a stop action (R159). -/
theorem quiescent_of_quiescentShape (hshape : QuiescentShape buf) : Quiescent buf := by
  unfold Quiescent
  rcases hshape with rfl | ⟨h0, hlen⟩ | ⟨h0, l, h1, h2, hlen⟩ | ⟨h, h0, hhead, hnl⟩
  · exact quiescent_nil
  · rw [(sel_and_headState_of_shortStart h0 hlen).1]
    rfl
  · rcases Nat.lt_or_ge buf.length 6 with hshort | h6
    · rw [(sel_and_headState_of_shortStart h0 hshort).1]
      rfl
    · rw [(sel_and_headState_of_partialFrame h0 h6 h1 h2 hlen).1]
      rfl
  · rw [(sel_and_headState_of_text h0 hhead hnl).1]
    rfl

end QuiescentHeads

/-- Settles O46: by the head of each of the four shapes. -/
theorem headStateHasItsFourCases : Obligations.HeadStateHasItsFourCases := fun _ =>
  ⟨fun hlen => (sel_and_headState_of_empty hlen).2,
   fun h0 hlen => (sel_and_headState_of_shortStart h0 hlen).2,
   fun _ h0 h6 h1 h2 hlen => (sel_and_headState_of_partialFrame h0 h6 h1 h2 hlen).2,
   fun _ h0 hhead hnl => (sel_and_headState_of_text h0 hhead hnl).2,
   ⟨quiescentShape_of_quiescent, quiescent_of_quiescentShape⟩⟩

end Sys2Proof.Machine
end

section
/-! CLAIM. O45, O47, O48, O50: the CSRs, CLEAR and reset. -/

namespace Sys2Proof.Machine

open Claims

/-! ### The fields of STATUS (R44) and CAP (R46) -/

section StatusFields
variable (bufCap : Nat) (buf : List Byte)

/-- BUF_LEN, bits 15:0. -/
theorem statusWord_bufLen : (statusWord bufCap buf).extractLsb' 0 16 = BitVec.ofNat 16 buf.length := by
  ext i hi
  have h18 : i < 18 := by omega
  have h32 : i < 32 := by omega
  simp [statusWord, hi, h18, h32]

/-- HEAD_STATE, bits 17:16. -/
theorem statusWord_headState : (statusWord bufCap buf).extractLsb' 16 2 = headState buf := by
  ext i hi
  interval_cases i <;> simp [statusWord]

/-- FULL, bit 18. -/
theorem statusWord_full : (statusWord bufCap buf).getLsbD 18 = true ↔ buf.length = bufCap := by
  by_cases hfull : buf.length = bufCap <;> simp [statusWord, fullBit, hfull]

/-- Bits 31:19 are zero. -/
theorem statusWord_high : (statusWord bufCap buf).extractLsb' 19 13 = 0#13 := by
  ext i hi
  interval_cases i <;> simp [statusWord]

end StatusFields

/-- STATUS of an empty buffer, which is never a full one (R12). -/
theorem statusWord_nil {bufCap : Nat} (h : bufCap ≠ 0) : statusWord bufCap [] = 0#32 := by
  simp [statusWord, fullBit, headState, h.symm]

/-- CAP is BUF_CAP, which its 16 bits hold (R12). -/
theorem capWord_eq {bufCap : Nat} (h : bufCap ≤ 65535) : capWord bufCap = BitVec.ofNat 32 bufCap := by
  apply BitVec.eq_of_toNat_eq
  simp [capWord]
  omega

/-- Settles O45: each index has its register, and the fields of STATUS do not overlap. -/
theorem csrsReadAndIgnoreWrites : Obligations.CsrsReadAndIgnoreWrites := by
  intro s ch c hc hfit hcap
  refine ⟨csrRd_answers hc (r := .ctrl) rfl, ⟨_, csrRd_answers hc rfl, ?_, statusWord_headState .., statusWord_full ..,
    statusWord_high ..⟩, csrRd_answers hc (r := .resyncCnt) rfl, ⟨_, ?_, csrRd_answers hc rfl⟩, fun v =>
    ⟨csrWr_ignored v hc rfl rfl, csrWr_ignored v hc rfl rfl, csrWr_ignored v hc rfl rfl⟩⟩
  · show ((statusWord s.bufCap c.buf).extractLsb' 0 16).toNat = c.buf.length
    rw [statusWord_bufLen, BitVec.toNat_ofNat]
    exact Nat.mod_eq_of_lt (by omega)
  · show (capWord s.bufCap).toNat = s.bufCap
    rw [capWord_eq hcap, BitVec.toNat_ofNat]
    exact Nat.mod_eq_of_lt (by omega)

/-- Settles O47: CTRL's one effect is `Channel.clear`, under bit 0 of the value. -/
theorem clearDiscardsOneChannel : Obligations.ClearDiscardsOneChannel := by
  intro s ch c v hc
  have hbit : v.getLsbD 0 = true ↔ v.toNat % 2 = 1 := by rw [BitVec.getLsbD, Nat.testBit_zero, decide_eq_true_iff]
  refine ⟨fun hodd => ?_, fun heven => ?_, csrRd_answers hc (r := .ctrl) rfl⟩
  · have hw : csrWritten c v .ctrl = c.clear := if_pos (hbit.mpr hodd)
    rw [csrWr_answers v hc rfl, hw]
    rfl
  · have hw : csrWritten c v .ctrl = c := if_neg (by rw [hbit]; omega)
    exact csrWr_ignored v hc rfl hw

/-- Settles O48: no register has the index, so the access raises IllegalOp whether the channel exists or not. -/
theorem unassignedCsrIsIllegalOp : Obligations.UnassignedCsrIsIllegalOp := fun _ _ _ v hk =>
  ⟨csrRd_illegal (.inr (csrOf_eq_none hk)), csrWr_illegal v (.inr (csrOf_eq_none hk))⟩

/-- Settles O50: a reset clears every channel, and the CSRs of a cleared channel read their reset values. -/
theorem resetPutsEveryChannelFresh : Obligations.ResetPutsEveryChannelFresh := by
  intro s rest hfeed hpending hlow hhigh
  refine ⟨({ s with pending := rest } : State).resetChannels, by simp only [step, fetch, hfeed, hpending], rfl,
    by simp, rfl, rfl, rfl, fun ch c hc => ?_⟩
  have hclear : ({ s with pending := rest } : State).resetChannels.channels[ch.toNat]? = some c.clear := by
    simp [hc]
  refine ⟨hclear, csrRd_answers hclear (r := .ctrl) rfl, ?_, csrRd_answers hclear (r := .resyncCnt) rfl, ?_⟩
  · rw [csrRd_answers hclear (r := .status) rfl]
    simp [csrValue, statusWord_nil (show s.bufCap ≠ 0 by omega)]
  · rw [csrRd_answers hclear (r := .cap) rfl]
    simp [csrValue, capWord_eq hhigh]

end Sys2Proof.Machine
end

section
/-! SUPPORT. What an instruction does to the channels, said once: it leaves them all, or writes the one it acts on. -/

namespace Sys2Proof.Machine

/-- The writes of a channel, by the instruction that makes them (R140, R146, R148, R149, R182). -/
inductive ChannelWrite : Instr → Channel → Channel → Prop where
  | feed (ch : BitVec 4) (b : Byte) (c c' : Channel) (us : List StreamUnit)
      (hrun : DrainRun { c with buf := c.buf ++ [b] } us c') : ChannelWrite (.feed ch b) c c'
  | clear (ch : BitVec 4) (v : Word) (c : Channel) (hbit : v.getLsbD 0 = true) : ChannelWrite (.csrWr ch 0x00#8 v) c c.clear
  | resync (c : Channel) : ChannelWrite .rResync c ⟨c.buf.drop 1, c.resyncCnt + 1#32, c.units⟩
  | frame (c : Channel) (n : Nat) (u : StreamUnit) : ChannelWrite .rFrame c { c.drop n with units := c.units ++ [u] }
  | line (c : Channel) (n : Nat) (u : StreamUnit) : ChannelWrite .rLine c { c.drop n with units := c.units ++ [u] }

/-- A write keeps the units emitted before (R39, R182). -/
theorem ChannelWrite.units_prefix {i : Instr} {c c' : Channel} (h : ChannelWrite i c c') : c.units <+: c'.units := by
  cases h with
  | feed _ _ _ _ _ hrun => exact hrun.units ▸ List.prefix_append _ _
  | clear => exact List.prefix_rfl
  | resync => exact List.prefix_rfl
  | frame => exact List.prefix_append _ _
  | line => exact List.prefix_append _ _

/-- A step action acts on the channel of the FEED in progress (R142). -/
theorem actsOn_of_runAction {i : Instr} {s t : State} {f : FeedInProgress} (h : runAction i s = .next t)
    (hf : s.feed = some f) : actsOn i s = some f.ch := by
  cases i with
  | feed => cases h
  | encode => cases h
  | decode => cases h
  | csrRd => cases h
  | csrWr => cases h
  | _ => simp [actsOn, hf]

/-- `t` differs from `s` in the one channel that `i` acts on, if in any. -/
def WritesOwnChannel (i : Instr) (s t : State) : Prop :=
  t.channels = s.channels ∨ ∃ n c c', actsOn i s = some n ∧ s.channels[n]? = some c ∧ ChannelWrite i c c' ∧
    t.channels = s.channels.set n c'

/-- A step action leaves the channels or writes that of the FEED in progress (R142). -/
theorem stepAction_writesOwnChannel {i : Instr} {s t : State} (h : runAction i s = .next t) :
    WritesOwnChannel i s t := by
  obtain ⟨f, c, hf, hc, -, ⟨-, rfl⟩ | ⟨rfl, rfl⟩ | ⟨rfl, rfl⟩ | ⟨rfl, rfl⟩⟩ := stepAction_cases h
  · exact .inl rfl
  · exact .inr ⟨f.ch, c, _, actsOn_of_runAction h hf, hc, .resync c, rfl⟩
  · exact .inr ⟨f.ch, c, _, actsOn_of_runAction h hf, hc, .frame c _ _, rfl⟩
  · exact .inr ⟨f.ch, c, _, actsOn_of_runAction h hf, hc, .line c _ _, rfl⟩

/-- Every instruction leaves the channels or writes the one it acts on (R33, R51). -/
theorem exec_writesOwnChannel {i : Instr} {s t : State} (h : exec i s = .next t) : WritesOwnChannel i s t := by
  rcases exec_cases h with ⟨_, _, -, rfl⟩ | ⟨ch, b, c, us, c', rfl, hc, -, hrun, rfl⟩ | ⟨_, -, rfl⟩ | ⟨_, rfl⟩ |
    ⟨ch, v, c, rfl, hbit, hc, rfl⟩ | hact
  · exact .inl rfl
  · exact .inr ⟨ch.toNat, c, c', rfl, hc, .feed ch b c c' us hrun, rfl⟩
  · exact .inl rfl
  · exact .inl rfl
  · exact .inr ⟨ch.toNat, c, c.clear, rfl, hc, .clear ch v c hbit, rfl⟩
  · exact stepAction_writesOwnChannel hact

/-- A channel that an instruction changes is its own, and is written by one of the rules. -/
theorem exec_write_of_ne {i : Instr} {s t : State} {n : Nat} {c c' : Channel} (h : exec i s = .next t)
    (hc : s.channels[n]? = some c) (hc' : t.channels[n]? = some c') (hne : c' ≠ c) :
    actsOn i s = some n ∧ ChannelWrite i c c' := by
  rcases exec_writesOwnChannel h with hch | ⟨m, d, d', hacts, hd, hw, hch⟩
  · rw [hch, hc] at hc'
    exact absurd (Option.some.inj hc').symm hne
  · rw [hch] at hc'
    rcases eq_or_ne m n with rfl | hmn
    · obtain rfl : d = c := Option.some.inj (hd.symm.trans hc)
      obtain rfl : d' = c' := Option.some.inj ((getElem?_set_of_some hd).symm.trans hc')
      exact ⟨hacts, hw⟩
    · rw [List.getElem?_set_ne hmn, hc] at hc'
      exact absurd (Option.some.inj hc').symm hne

end Sys2Proof.Machine
end

section
/-! CLAIM. O39, O42, O43, O44: the channels and the responses. -/

namespace Sys2Proof.Machine

open Claims

/-! ### O42, O44: which instruction writes which channel -/

/-- Settles O42: an instruction writes the channel it acts on, if any. -/
theorem otherChannelsAreUntouched : Obligations.OtherChannelsAreUntouched := by
  intro i s t n h hother
  rcases exec_writesOwnChannel h with hch | ⟨m, c, c', hacts, -, -, hch⟩
  · rw [hch]
  · have hmn : m ≠ n := by
      rintro rfl
      exact hother hacts
    rw [hch, List.getElem?_set_ne hmn]

/-- Settles O44: by the writes of a channel; R_FRAME and R_LINE keep the counter. -/
theorem onlyTheseWriteAChannel : Obligations.OnlyTheseWriteAChannel := by
  intro i s t n c c' h hc hc'
  by_cases hsame : c' = c
  · simp [hsame]
  obtain ⟨hacts, hw⟩ := exec_write_of_ne h hc hc' hsame
  cases hw with
  | feed ch b =>
    have hch : ∃ ch' b', Instr.feed ch b = .feed ch' b' ∧ ch'.toNat = n := ⟨ch, b, rfl, Option.some.inj hacts⟩
    exact ⟨fun _ => .inl hch, fun _ => .inl hch⟩
  | clear ch v _ hbit =>
    have hch : ∃ ch' v', Instr.csrWr ch 0x00#8 v = .csrWr ch' 0x00#8 v' ∧ ch'.toNat = n ∧ v'.getLsbD 0 = true :=
      ⟨ch, v, rfl, Option.some.inj hacts, hbit⟩
    exact ⟨fun _ => .inr (.inr hch), fun _ => .inr (.inr (.inr (.inr hch)))⟩
  | resync => exact ⟨fun _ => .inr (.inl rfl), fun _ => .inr (.inl rfl)⟩
  | frame => exact ⟨fun hcnt => absurd rfl hcnt, fun _ => .inr (.inr (.inl rfl))⟩
  | line => exact ⟨fun hcnt => absurd rfl hcnt, fun _ => .inr (.inr (.inr (.inl rfl)))⟩

/-! ### O39: what only grows -/

/-- Every channel still has the units it had, at the head of its UNITS. -/
def KeepsUnits (cs cs' : List Channel) : Prop :=
  ∀ (n : Nat) (c : Channel), cs[n]? = some c → ∃ c', cs'[n]? = some c' ∧ c.units <+: c'.units

theorem KeepsUnits.refl (cs : List Channel) : KeepsUnits cs cs := fun _ c hc => ⟨c, hc, List.prefix_rfl⟩

/-- CLEAR keeps UNITS (R182), so a reset does (R230). -/
theorem KeepsUnits.map_clear (cs : List Channel) : KeepsUnits cs (cs.map Channel.clear) := fun _ c hc =>
  ⟨c.clear, by simp [hc], List.prefix_rfl⟩

/-- Every instruction keeps UNITS of every channel (R39). -/
theorem exec_keepsUnits {i : Instr} {s t : State} (h : exec i s = .next t) : KeepsUnits s.channels t.channels := by
  rcases exec_writesOwnChannel h with hch | ⟨m, d, d', -, hd, hw, hch⟩
  · rw [hch]
    exact .refl _
  · intro n c hc
    rw [hch]
    rcases eq_or_ne m n with rfl | hmn
    · obtain rfl : d = c := Option.some.inj (hd.symm.trans hc)
      exact ⟨d', getElem?_set_of_some hd, hw.units_prefix⟩
    · exact ⟨c, by rw [List.getElem?_set_ne hmn, hc], List.prefix_rfl⟩

/-- Every instruction keeps the responses given (R94) and the units emitted (R39). -/
theorem exec_appendsOnly {i : Instr} {s t : State} (h : exec i s = .next t) :
    s.responses <+: t.responses ∧ KeepsUnits s.channels t.channels := by
  obtain ⟨-, -, -, hsame | ⟨r, hmore⟩⟩ := execKeepsParametersAndQueue i s t h
  · exact ⟨hsame ▸ List.prefix_rfl, exec_keepsUnits h⟩
  · exact ⟨hmore ▸ List.prefix_append _ _, exec_keepsUnits h⟩

/-- Settles O39: a step runs an instruction, raises IllegalOp, resets, or only takes an event from the queue. -/
theorem unitsAreAppendOnly : Obligations.UnitsAreAppendOnly := by
  intro s s' hstep
  rcases step_cases s with ⟨f, -, he⟩ | ⟨-, ⟨_, i, q, -, he⟩ | ⟨q, he⟩ | ⟨q, he⟩ | ⟨q, he⟩⟩
  · exact exec_appendsOnly (he.symm.trans hstep)
  · exact exec_appendsOnly (s := { s with pending := q }) (he.symm.trans hstep)
  · obtain rfl : _ = s' := Host.Outcome.next.inj (he.symm.trans hstep)
    exact ⟨List.prefix_append _ _, KeepsUnits.refl _⟩
  · obtain rfl : _ = s' := Host.Outcome.next.inj (he.symm.trans hstep)
    exact ⟨List.prefix_rfl, KeepsUnits.map_clear _⟩
  · obtain rfl : _ = s' := Host.Outcome.next.inj (he.symm.trans hstep)
    exact ⟨List.prefix_rfl, KeepsUnits.refl _⟩

/-! ### O43: what an instruction reads -/

/-- The two states look the same to an instruction that acts on channel `n` (R51). -/
structure AgreeOn (n : Nat) (s₁ s₂ : State) : Prop where
  bufCap : s₁.bufCap = s₂.bufCap
  feed : s₁.feed = s₂.feed
  channel : s₁.channels[n]? = s₂.channels[n]?

/-- From `s₁` to `t₁` and from `s₂` to `t₂`, channel `n`, the FEED in progress and the new responses come out the same. -/
def SameEffectOn (n : Nat) (s₁ s₂ t₁ t₂ : State) : Prop :=
  t₁.channels[n]? = t₂.channels[n]? ∧ t₁.feed = t₂.feed ∧
    t₁.responses.drop s₁.responses.length = t₂.responses.drop s₂.responses.length

section SameEffect
variable {n : Nat} {s₁ s₂ : State}

/-- Answering leaves channel and FEED. -/
theorem AgreeOn.sameEffect_respond (h : AgreeOn n s₁ s₂) (st : Status) (d : Data) :
    SameEffectOn n s₁ s₂ (s₁.respond st d) (s₂.respond st d) := by
  simp [SameEffectOn, h.channel, h.feed]

/-- The same channel written, the same FEED left, the same responses added. -/
theorem AgreeOn.sameEffect_write (h : AgreeOn n s₁ s₂) {c c' : Channel} {t₁ t₂ : State} {rs : List Response}
    (hc : s₁.channels[n]? = some c) (hch₁ : t₁.channels = s₁.channels.set n c') (hch₂ : t₂.channels = s₂.channels.set n c')
    (hfeed : t₁.feed = t₂.feed) (hr₁ : t₁.responses = s₁.responses ++ rs) (hr₂ : t₂.responses = s₂.responses ++ rs) :
    SameEffectOn n s₁ s₂ t₁ t₂ := by
  refine ⟨?_, hfeed, by simp [hr₁, hr₂]⟩
  rw [hch₁, hch₂, getElem?_set_of_some hc, getElem?_set_of_some (h.channel ▸ hc)]

/-- An instruction has one outcome, so its effect on the two states is that of the outcomes known. -/
theorem SameEffectOn.of_outcomes {i : Instr} {t₁ u₁ u₂ : State} (h : SameEffectOn n s₁ s₂ u₁ u₂)
    (he : exec i s₁ = .next t₁) (h₁ : exec i s₁ = .next u₁) (h₂ : exec i s₂ = .next u₂) :
    ∃ t₂, exec i s₂ = .next t₂ ∧ SameEffectOn n s₁ s₂ t₁ t₂ := by
  obtain rfl : u₁ = t₁ := Host.Outcome.next.inj (h₁.symm.trans he)
  exact ⟨u₂, h₂, h⟩

section HostOperations
variable {ch : BitVec 4} {t₁ : State}

/-- FEED reads BUF_CAP and its channel (R140, R141). -/
theorem feed_sameEffect {b : Byte} (h : AgreeOn ch.toNat s₁ s₂) (he : exec (.feed ch b) s₁ = .next t₁) :
    ∃ t₂, exec (.feed ch b) s₂ = .next t₂ ∧ SameEffectOn ch.toNat s₁ s₂ t₁ t₂ := by
  rcases execFeed_cases ch b s₁ with ⟨hc, he₁⟩ | ⟨c, hc, hfull, he₁⟩ | ⟨c, us, c', hc, haccepted, hrun, he₁⟩
  · exact (h.sameEffect_respond _ _).of_outcomes he he₁ (execFeed_absent (h.channel ▸ hc))
  · have hsame : SameEffectOn ch.toNat s₁ s₂ s₁ s₂ := ⟨h.channel, h.feed, by simp⟩
    exact hsame.of_outcomes he he₁ (execFeed_full (h.channel ▸ hc) (h.bufCap ▸ hfull))
  · have hsame : SameEffectOn ch.toNat s₁ s₂ (fedState s₁ ⟨ch.toNat, []⟩ us c') (fedState s₂ ⟨ch.toNat, []⟩ us c') :=
      h.sameEffect_write hc rfl rfl rfl rfl rfl
    exact hsame.of_outcomes he he₁ (execFeed_accepted (h.channel ▸ hc) (h.bufCap ▸ haccepted) hrun)

/-- CSR_RD reads BUF_CAP and its channel (R180). -/
theorem csrRd_sameEffect {k : Byte} (h : AgreeOn ch.toNat s₁ s₂) (he : exec (.csrRd ch k) s₁ = .next t₁) :
    ∃ t₂, exec (.csrRd ch k) s₂ = .next t₂ ∧ SameEffectOn ch.toNat s₁ s₂ t₁ t₂ := by
  rcases csrAccess_cases ch k s₁ with hill | ⟨c, r, hc, hk⟩
  · exact (h.sameEffect_respond _ _).of_outcomes he (csrRd_illegal hill) (csrRd_illegal (h.channel ▸ hill))
  · refine (h.sameEffect_respond _ _).of_outcomes he (csrRd_answers hc hk) ?_
    rw [csrRd_answers (h.channel ▸ hc) hk, h.bufCap]
    rfl

/-- CSR_WR reads its channel (R181). -/
theorem csrWr_sameEffect {k : Byte} {v : Word} (h : AgreeOn ch.toNat s₁ s₂) (he : exec (.csrWr ch k v) s₁ = .next t₁) :
    ∃ t₂, exec (.csrWr ch k v) s₂ = .next t₂ ∧ SameEffectOn ch.toNat s₁ s₂ t₁ t₂ := by
  rcases csrAccess_cases ch k s₁ with hill | ⟨c, r, hc, hk⟩
  · exact (h.sameEffect_respond _ _).of_outcomes he (csrWr_illegal v hill) (csrWr_illegal v (h.channel ▸ hill))
  · have hsame : SameEffectOn ch.toNat s₁ s₂ (answered (s₁.setChannel ch.toNat (csrWritten c v r)) .ok .none)
        (answered (s₂.setChannel ch.toNat (csrWritten c v r)) .ok .none) :=
      h.sameEffect_write hc rfl rfl h.feed rfl rfl
    exact hsame.of_outcomes he (csrWr_answers v hc hk) (csrWr_answers v (h.channel ▸ hc) hk)

end HostOperations

/-- A step action reads the FEED in progress and its channel (R142). -/
theorem stepAction_sameEffect {i : Instr} {t₁ : State} (h : AgreeOn n s₁ s₂) (hacts : actsOn i s₁ = some n)
    (he : runAction i s₁ = .next t₁) : ∃ t₂, runAction i s₂ = .next t₂ ∧ SameEffectOn n s₁ s₂ t₁ t₂ := by
  obtain ⟨f, c, hf, hc, hsel, hcases⟩ := stepAction_cases he
  obtain rfl : f.ch = n := Option.some.inj ((actsOn_of_runAction he hf).symm.trans hacts)
  have hf₂ : s₂.feed = some f := h.feed ▸ hf
  have hc₂ : s₂.channels[f.ch]? = some c := h.channel ▸ hc
  rcases hcases with ⟨hstop, rfl⟩ | ⟨rfl, rfl⟩ | ⟨rfl, rfl⟩ | ⟨rfl, rfl⟩
  · subst hsel
    exact ⟨_, runAction_stop hf₂ hc₂ hstop, h.channel, rfl, by simp⟩
  · exact ⟨_, runAction_resync hf₂ hc₂ hsel,
      h.sameEffect_write (rs := []) hc rfl rfl h.feed (List.append_nil _).symm (List.append_nil _).symm⟩
  · exact ⟨_, runAction_frame hf₂ hc₂ hsel,
      h.sameEffect_write (rs := []) hc rfl rfl rfl (List.append_nil _).symm (List.append_nil _).symm⟩
  · exact ⟨_, runAction_line hf₂ hc₂ hsel,
      h.sameEffect_write (rs := []) hc rfl rfl rfl (List.append_nil _).symm (List.append_nil _).symm⟩

end SameEffect

/-- Settles O43: by the instruction; ENCODE and DECODE act on no channel. -/
theorem otherChannelsAreNotRead : Obligations.OtherChannelsAreNotRead := by
  intro i s₁ s₂ t₁ n hcap _ hfeed hchannel hacts he
  have hagree : AgreeOn n s₁ s₂ := ⟨hcap, hfeed, hchannel⟩
  cases i with
  | feed ch b =>
    obtain rfl : ch.toNat = n := Option.some.inj hacts
    exact feed_sameEffect hagree he
  | csrRd ch k =>
    obtain rfl : ch.toNat = n := Option.some.inj hacts
    exact csrRd_sameEffect hagree he
  | csrWr ch k v =>
    obtain rfl : ch.toNat = n := Option.some.inj hacts
    exact csrWr_sameEffect hagree he
  | encode => cases hacts
  | decode => cases hacts
  | _ => exact stepAction_sameEffect hagree hacts he

end Sys2Proof.Machine
end

section
/-! CLAIM. O7, O28: what a step runs, and the atomic FEED as its step actions one by one. -/

namespace Sys2Proof.Machine

/-- Inside a FEED a step runs the action that the FEED's buffer selects (R142, log 9). -/
theorem step_of_feed {s : State} {f : FeedInProgress} (hf : s.feed = some f) :
    step s = exec (sel (s.bufOf f.ch)) s := by
  simp [step, fetch, hf]

/-- An accepted transaction leaves the queue and runs (R70, R87). -/
theorem step_of_transaction {s : State} {t : Transaction} {rest : List HostEvent} {i : Instr} (hf : s.feed = none)
    (hp : s.pending = .issue t :: rest) (hd : decodeHost t = .ok i) (haccepted : notAccepted i s = false) :
    step s = exec i { s with pending := rest } := by
  simp [step, fetch, hf, hp, fetchTransaction, hd, haccepted]

/-- Settles O7: by what is next, a transaction or the FEED in progress. -/
theorem stepRunsTheDecodedInstruction : Obligations.StepRunsTheDecodedInstruction := by
  refine ⟨fun s t rest i hf hp hd _ haccepted => ?_, fun s f c hf hc => ⟨sel c.buf, rfl, ?_⟩⟩
  · exact step_of_transaction hf hp hd haccepted
  · rw [step_of_feed hf, State.bufOf_some hc]

/-- DRAIN's case split gives a selected action the meaning `exec` gives it: `sel` answers step actions only (R143). -/
theorem exec_sel (buf : List Byte) (s : State) : exec (sel buf) s = runAction (sel buf) s := by
  rcases sel_cases buf with ⟨h, -⟩ | ⟨h, -⟩ | ⟨h, -⟩ | ⟨h, -⟩ | ⟨h, -⟩ | ⟨h, -⟩ | ⟨h, -⟩ <;> rw [h] <;> rfl

/-- With a FEED in progress DRAIN begins with one step of the machine (R142). -/
theorem drain_succ_of_feed {s : State} {f : FeedInProgress} (n : Nat) (hf : s.feed = some f) :
    drain (n + 1) s = andThen (step s) (drain n) := by
  rw [step_of_feed hf, exec_sel]
  simp [drain, hf]

/-- `k` steps of the machine as an outcome of `State`: `core`'s run, its three types written out. -/
def runSteps (k : Nat) (s : State) : Result := Host.Core.run core k s

@[simp] theorem runSteps_zero (s : State) : runSteps 0 s = .next s := rfl

/-- A run begins with one step and stops where that step stops. -/
theorem runSteps_succ (k : Nat) (s : State) : runSteps (k + 1) s = andThen (step s) (runSteps k) := by
  simp only [runSteps, Host.Core.run, core]
  cases step s with
  | next s' => rfl
  | fault e => rfl
  | refused e => rfl

/-- Where a run of at most `n` steps matches DRAIN from every state, one step more at the head matches that step followed
by DRAIN. -/
theorem exists_runSteps_eq_step_then_drain {n : Nat} (hrest : ∀ s, ∃ k, k ≤ n ∧ runSteps k s = drain n s) (s : State) :
    ∃ k, k ≤ n ∧ runSteps (k + 1) s = andThen (step s) (drain n) := by
  simp only [runSteps_succ]
  cases step s with
  | next s' => exact hrest s'
  | fault e => exact ⟨0, Nat.zero_le n, rfl⟩
  | refused e => exact ⟨0, Nat.zero_le n, rfl⟩

/-- DRAIN under fuel `n` is at most `n` steps of the machine: none once no FEED is in progress (R142, log 9). -/
theorem exists_runSteps_eq_drain (n : Nat) : ∀ s : State, ∃ k, k ≤ n ∧ runSteps k s = drain n s := by
  induction n with
  | zero => exact fun _ => ⟨0, le_rfl, rfl⟩
  | succ n ih =>
    intro s
    cases hf : s.feed with
    | none => exact ⟨0, Nat.zero_le _, by simp [drain, hf]⟩
    | some f =>
      obtain ⟨k, hk, hrun⟩ := exists_runSteps_eq_step_then_drain ih s
      exact ⟨k + 1, Nat.succ_le_succ hk, hrun.trans (drain_succ_of_feed n hf).symm⟩

/-- An accepted FEED appends its byte and runs DRAIN with fuel `|buf| + 1` (R140, R151). -/
theorem execFeed_eq_drain {ch : BitVec 4} {b : Byte} {s : State} {c : Channel} (hc : s.channels[ch.toNat]? = some c)
    (haccepted : c.buf.length ≠ s.bufCap) :
    execFeed ch b s = drain (c.buf.length + 2) (openFeed ch.toNat [b] c s) := by
  simp [execFeed, onChannel_some _ hc, haccepted, feedChunk]

/-- Settles O28: the appended state has a FEED in progress, so DRAIN takes a first step there, and at most one more for
each further unit of its fuel. -/
theorem feedIsItsStepActionsOneByOne : Obligations.FeedIsItsStepActionsOneByOne := by
  intro s ch b c hc haccepted
  obtain ⟨k, hk, hrun⟩ := exists_runSteps_eq_step_then_drain
    (exists_runSteps_eq_drain (c.buf.length + 1)) (openFeed ch.toNat [b] c s)
  refine ⟨k + 1, Nat.le_add_left 1 k, Nat.succ_le_succ hk, ?_⟩
  calc runSteps (k + 1) (openFeed ch.toNat [b] c s)
      = andThen (step (openFeed ch.toNat [b] c s)) (drain (c.buf.length + 1)) := hrun
    _ = drain (c.buf.length + 2) (openFeed ch.toNat [b] c s) := (drain_succ_of_feed _ rfl).symm
    _ = execFeed ch b s := (execFeed_eq_drain hc haccepted).symm

end Sys2Proof.Machine
end

section
/-! CLAIM. O1, O2, O6: the encoder and the decoder of host transactions invert each other (R87 to R93). -/

namespace Sys2Proof

/-! ### Transactions that decode to an instruction, by operation -/

section DecodeByOperation
variable {t : Transaction} {i : Instr}

/-- R88. -/
theorem decodeFeed_ok (h : decodeFeed t = .ok i) : t.ops = [] ∧ i = .feed t.header.ch t.header.imm := by
  unfold decodeFeed at h
  split at h
  · exact ⟨‹_›, (Except.ok.inj h).symm⟩
  · cases h

/-- R89. -/
theorem decodeEncode_ok (h : decodeEncode t = .ok i) : t.header.ch = 0#4 ∧
    ∃ control address payload, t.ops = control :: address :: payload ∧ payload.length = t.header.imm.toNat ∧
      i = .encode control address payload := by
  unfold decodeEncode at h
  split at h
  · cases h
  · rename_i hch
    refine ⟨not_not.mp hch, ?_⟩
    split at h
    · split at h
      · exact ⟨_, _, _, ‹_›, ‹_›, (Except.ok.inj h).symm⟩
      · cases h
    · cases h

/-- R90. -/
theorem decodeDecode_ok (h : decodeDecode t = .ok i) : t.ops.length = t.header.len.toNat ∧ i = .decode t.ops := by
  unfold decodeDecode at h
  split at h
  · exact ⟨‹_›, (Except.ok.inj h).symm⟩
  · cases h

/-- R91. -/
theorem decodeCsrRd_ok (h : decodeCsrRd t = .ok i) : t.ops = [] ∧ i = .csrRd t.header.ch t.header.imm := by
  unfold decodeCsrRd at h
  split at h
  · exact ⟨‹_›, (Except.ok.inj h).symm⟩
  · cases h

/-- R92. -/
theorem decodeCsrWr_ok (h : decodeCsrWr t = .ok i) :
    ∃ o0 o1 o2 o3, t.ops = [o0, o1, o2, o3] ∧ i = .csrWr t.header.ch t.header.imm (wordOfBytes o0 o1 o2 o3) := by
  unfold decodeCsrWr at h
  split at h
  · exact ⟨_, _, _, _, ‹_›, (Except.ok.inj h).symm⟩
  · cases h

/-- Everything a host transaction can decode to, by bits 15:12 (R87). -/
theorem decodeHost_ok_cases (h : decodeHost t = .ok i) :
    (t.header.op = 1#4 ∧ decodeFeed t = .ok i) ∨ (t.header.op = 2#4 ∧ decodeEncode t = .ok i) ∨
    (t.header.op = 3#4 ∧ decodeDecode t = .ok i) ∨ (t.header.op = 4#4 ∧ decodeCsrRd t = .ok i) ∨
    (t.header.op = 5#4 ∧ decodeCsrWr t = .ok i) := by
  unfold decodeHost at h
  split at h
  · exact .inl ⟨BitVec.eq_of_toNat_eq ‹_›, h⟩
  · exact .inr (.inl ⟨BitVec.eq_of_toNat_eq ‹_›, h⟩)
  · exact .inr (.inr (.inl ⟨BitVec.eq_of_toNat_eq ‹_›, h⟩))
  · exact .inr (.inr (.inr (.inl ⟨BitVec.eq_of_toNat_eq ‹_›, h⟩)))
  · exact .inr (.inr (.inr (.inr ⟨BitVec.eq_of_toNat_eq ‹_›, h⟩)))
  · cases h

end DecodeByOperation

/-! ### Headers rebuilt from their fields -/

/-- A header whose OP is known is built from the other two fields. -/
theorem Header.ofFields_of_op {h : Header} {op : BitVec 4} (hop : h.op = op) : Header.ofFields op h.ch h.imm = h :=
  hop ▸ h.ofFields_fields

/-- The same with the 12-bit length of DECODE. -/
theorem Header.ofLen_of_op {h : Header} {op : BitVec 4} (hop : h.op = op) : Header.ofLen op h.len = h :=
  hop ▸ h.ofLen_fields

/-! ### The claims -/

/-- Settles O1: by the instruction; a length that `wf` admits is not cut by its field, and four bytes give their word
back. -/
theorem decodeInvertsEncode : Obligations.DecodeInvertsEncode := by
  intro i hwf
  cases i with
  | feed ch b => simp [decode, encode, decodeHost, decodeFeed]
  | encode control address payload =>
    have hlen : payload.length ≤ 255 := by simpa [Instr.wf] using hwf
    have hfield : payload.length % 256 = payload.length := Nat.mod_eq_of_lt (by omega)
    simp [decode, encode, decodeHost, decodeEncode, hfield]
  | decode f =>
    have hlen : f.length ≤ 4095 := by simpa [Instr.wf] using hwf
    have hfield : f.length % 4096 = f.length := Nat.mod_eq_of_lt (by omega)
    simp [decode, encode, decodeHost, decodeDecode, hfield]
  | csrRd ch k => simp [decode, encode, decodeHost, decodeCsrRd]
  | csrWr ch k v => simp [decode, encode, decodeHost, decodeCsrWr, bytesOfWord, wordOfBytes_bytesOfWord]
  | rIdle => rfl
  | rWaitHdr => rfl
  | rResync => rfl
  | rWaitBody => rfl
  | rFrame => rfl
  | rLine => rfl
  | rWaitLine => rfl

/-- Settles O2: by the operation; each field of the header and each operand byte is read once, so it is written back. -/
theorem acceptedTransactionIsItsEncoding : Obligations.AcceptedTransactionIsItsEncoding := by
  rintro ⟨h, ops⟩ i hd
  rcases decodeHost_ok_cases hd with ⟨hop, hi⟩ | ⟨hop, hi⟩ | ⟨hop, hi⟩ | ⟨hop, hi⟩ | ⟨hop, hi⟩
  · obtain ⟨rfl, rfl⟩ := decodeFeed_ok hi
    exact ⟨rfl, by rw [encode, Header.ofFields_of_op hop]⟩
  · obtain ⟨hch, control, address, payload, rfl, hlen, rfl⟩ := decodeEncode_ok hi
    have hfit : payload.length ≤ 255 := by have := h.imm.isLt; simp only at hlen; omega
    refine ⟨by simpa [Instr.wf] using hfit, ?_⟩
    rw [encode, hlen, BitVec.ofNat_toNat, BitVec.setWidth_eq, ← hch, Header.ofFields_of_op hop]
  · obtain ⟨hlen, rfl⟩ := decodeDecode_ok hi
    have hfit : ops.length ≤ 4095 := by have := h.len.isLt; simp only at hlen; omega
    refine ⟨by simpa [Instr.wf] using hfit, ?_⟩
    rw [encode, hlen, BitVec.ofNat_toNat, BitVec.setWidth_eq, Header.ofLen_of_op hop]
  · obtain ⟨rfl, rfl⟩ := decodeCsrRd_ok hi
    exact ⟨rfl, by rw [encode, Header.ofFields_of_op hop]⟩
  · obtain ⟨o0, o1, o2, o3, rfl, rfl⟩ := decodeCsrWr_ok hi
    exact ⟨rfl, by rw [encode, bytesOfWord_wordOfBytes, Header.ofFields_of_op hop]⟩

/-- Settles O6: bits 15:12 select CSR_WR, and the operand's value is that of `wordOfBytes`. -/
theorem csrWrOperandIsLittleEndian : Obligations.CsrWrOperandIsLittleEndian := by
  intro h o0 o1 o2 o3 hop
  have hop' : h.op.toNat = 5 := h.op_toNat.trans hop
  exact ⟨h.ch, h.imm, wordOfBytes o0 o1 o2 o3, by simp [decode, decodeHost, decodeCsrWr, hop'], h.ch_toNat, h.imm_toNat,
    wordOfBytes_toNat o0 o1 o2 o3⟩

end Sys2Proof
end

section
/-! CLAIM. O3: `sel` is the table of R96. -/

namespace Sys2Proof

open Machine

section SelectedRow
variable {buf : List Byte} {l m : Byte}

/-- START and two length bytes that differ (R96, R143). -/
theorem sel_of_resync (h0 : buf[0]? = some 0x68#8) (h6 : 6 ≤ buf.length) (h1 : buf[1]? = some l) (h2 : buf[2]? = some m)
    (hne : l ≠ m) : sel buf = .rResync := by
  have hpos : buf.length ≠ 0 := by omega
  have hlong : ¬ buf.length < 6 := by omega
  simp [sel, byteAt_of_getElem? h0, byteAt_of_getElem? h1, byteAt_of_getElem? h2, hpos, hlong, hne]

/-- START, agreeing length bytes and the whole frame (R96, R143). -/
theorem sel_of_frame (h0 : buf[0]? = some 0x68#8) (h6 : 6 ≤ buf.length) (h1 : buf[1]? = some l) (h2 : buf[2]? = some l)
    (hlen : l.toNat + 6 ≤ buf.length) : sel buf = .rFrame := by
  have hpos : buf.length ≠ 0 := by omega
  have hlong : ¬ buf.length < 6 := by omega
  have hwhole : ¬ buf.length < l.toNat + 6 := by omega
  simp [sel, byteAt_of_getElem? h0, byteAt_of_getElem? h1, byteAt_of_getElem? h2, hpos, hlong, frameLen, hwhole]

/-- Another head than START: the buffer is text (R96, R143). -/
theorem sel_of_not_start (hpos : 1 ≤ buf.length) (h0 : buf[0]? ≠ some 0x68#8) :
    sel buf = if 0x0A#8 ∈ buf then .rLine else .rWaitLine := by
  have hne : buf.length ≠ 0 := by omega
  have hhead : byteAt buf 0 ≠ 0x68#8 := fun h => h0 ((getElem?_eq_byteAt hpos).trans (congrArg some h))
  simp [sel, hne, hhead]

/-- The row of the action `sel` answers holds. -/
theorem headRow_sel (buf : List Byte) : HeadRow (sel buf) buf := by
  have read {n : Nat} {b : Byte} (hn : n < buf.length) (h : byteAt buf n = b) : buf[n]? = some b :=
    (getElem?_eq_byteAt hn).trans (congrArg some h)
  have head {b : Byte} (h : byteAt buf 0 ≠ b) : buf[0]? ≠ some b := fun h0 => h (byteAt_of_getElem? h0)
  rcases sel_cases buf with ⟨hs, hlen⟩ | ⟨hs, hpos, h0, hlen⟩ | ⟨hs, h6, h0, h12⟩ | ⟨hs, h6, h0, h12, hlen⟩ |
    ⟨hs, h6, h0, h12, hlen⟩ | ⟨hs, hpos, h0, hnl⟩ | ⟨hs, hpos, h0, hnl⟩ <;> rw [hs]
  · exact hlen
  · exact ⟨read hpos h0, hpos, hlen⟩
  · exact ⟨read (by omega) h0, h6, _, _, read (by omega) rfl, read (by omega) rfl, h12⟩
  · exact ⟨read (by omega) h0, h6, _, read (by omega) rfl, read (by omega) h12.symm, hlen⟩
  · exact ⟨read (by omega) h0, h6, _, read (by omega) rfl, read (by omega) h12.symm, hlen⟩
  · exact ⟨hpos, head h0, hnl⟩
  · exact ⟨hpos, head h0, hnl⟩

/-- Where a row holds, `sel` answers its action. -/
theorem sel_eq_of_headRow {i : Instr} (h : HeadRow i buf) : sel buf = i := by
  cases i with
  | rIdle => exact (sel_and_headState_of_empty h).1
  | rWaitHdr =>
    obtain ⟨h0, -, hlen⟩ := h
    exact (sel_and_headState_of_shortStart h0 hlen).1
  | rResync =>
    obtain ⟨h0, h6, l, m, h1, h2, hne⟩ := h
    exact sel_of_resync h0 h6 h1 h2 hne
  | rWaitBody =>
    obtain ⟨h0, h6, l, h1, h2, hlen⟩ := h
    exact (sel_and_headState_of_partialFrame h0 h6 h1 h2 hlen).1
  | rFrame =>
    obtain ⟨h0, h6, l, h1, h2, hlen⟩ := h
    exact sel_of_frame h0 h6 h1 h2 hlen
  | rLine =>
    obtain ⟨hpos, h0, hnl⟩ := h
    rw [sel_of_not_start hpos h0, if_pos hnl]
  | rWaitLine =>
    obtain ⟨hpos, h0, hnl⟩ := h
    rw [sel_of_not_start hpos h0, if_neg hnl]
  | feed => exact h.elim
  | encode => exact h.elim
  | decode => exact h.elim
  | csrRd => exact h.elim
  | csrWr => exact h.elim

end SelectedRow

/-- Settles O3: the selected action's row holds, and no other one does, since `sel` is a function. -/
theorem selFollowsThePatternTable : Obligations.SelFollowsThePatternTable :=
  ⟨fun buf _ => ⟨fun h => h ▸ headRow_sel buf, sel_eq_of_headRow⟩,
   fun buf => ⟨sel buf, headRow_sel buf, fun _ h => (sel_eq_of_headRow h).symm⟩⟩

end Sys2Proof
end

section
/-! CLAIM. O5, O49: the five conditions of R93, two of them read off the instruction. -/

namespace Sys2Proof.Machine

open Claims

/-! ### Conditions 3 and 5: the operands name a channel and a CSR that exist -/

/-- What is left of R93 once a transaction decodes: a channel the block of `n` channels lacks, or an unassigned CSR. -/
def IllegalOperands (n : Nat) : Instr → Prop
  | .feed ch _ => n ≤ ch.toNat
  | .csrRd ch k => n ≤ ch.toNat ∨ 4 ≤ k.toNat
  | .csrWr ch k _ => n ≤ ch.toNat ∨ 4 ≤ k.toNat
  | _ => False

/-- Of an encoded instruction R93 refuses its operands only. -/
theorem illegalTransaction_iff_of_encode {i : Instr} {t : Transaction} (n : Nat) (hwf : i.wf = true)
    (he : encode i = .host t) : IllegalTransaction n t ↔ IllegalOperands n i := by
  cases i with
  | feed ch b =>
    obtain rfl := Encoding.host.inj he
    have := ch.isLt; have := b.isLt
    simp only [IllegalTransaction, IllegalOperands, Header.ofFields_toNat, List.length_nil, BitVec.reduceToNat]
    omega
  | encode control address payload =>
    obtain rfl := Encoding.host.inj he
    have hlen : payload.length ≤ 255 := by simpa [Instr.wf] using hwf
    simp only [IllegalTransaction, IllegalOperands, Header.ofFields_toNat, List.length_cons, BitVec.toNat_ofNat, iff_false]
    omega
  | decode f =>
    obtain rfl := Encoding.host.inj he
    have hlen : f.length ≤ 4095 := by simpa [Instr.wf] using hwf
    simp only [IllegalTransaction, IllegalOperands, Header.ofLen_toNat, BitVec.toNat_ofNat, iff_false]
    omega
  | csrRd ch k =>
    obtain rfl := Encoding.host.inj he
    have := ch.isLt; have := k.isLt
    simp only [IllegalTransaction, IllegalOperands, Header.ofFields_toNat, List.length_nil, BitVec.reduceToNat]
    omega
  | csrWr ch k v =>
    obtain rfl := Encoding.host.inj he
    have := ch.isLt; have := k.isLt
    simp only [IllegalTransaction, IllegalOperands, Header.ofFields_toNat, bytesOfWord, List.length_cons, List.length_nil,
      BitVec.reduceToNat]
    omega
  | _ => cases he

/-- Illegal operands raise IllegalOp (R93, R204). -/
theorem exec_of_illegalOperands {i : Instr} {s : State} (h : IllegalOperands s.channels.length i) :
    exec i s = .next (answered s .illegalOp .none) := by
  cases i with
  | feed ch b => exact execFeed_absent (List.getElem?_eq_none h)
  | csrRd ch k => exact csrRd_illegal (h.imp List.getElem?_eq_none csrOf_eq_none)
  | csrWr ch k v => exact csrWr_illegal v (h.imp List.getElem?_eq_none csrOf_eq_none)
  | _ => exact h.elim

/-- Settles O49: an absent channel is an illegal operand of each of the three. -/
theorem absentChannelIsIllegalOp : Obligations.AbsentChannelIsIllegalOp := fun _ _ _ _ _ habsent =>
  ⟨exec_of_illegalOperands habsent, exec_of_illegalOperands (.inl habsent), exec_of_illegalOperands (.inl habsent)⟩

/-- A FEED that is held is on a channel the block has. -/
theorem notAccepted_of_illegalOperands {i : Instr} {s : State} (h : IllegalOperands s.channels.length i) :
    notAccepted i s = false := by
  cases i with
  | feed ch b => simp [notAccepted, List.getElem?_eq_none h]
  | _ => rfl

/-- A CSR access whose channel and index exist has a channel and a register (R42, R93). -/
theorem exists_channel_and_register {ch : BitVec 4} {k : Byte} {s : State}
    (h : ¬ (s.channels.length ≤ ch.toNat ∨ 4 ≤ k.toNat)) :
    ∃ c r, s.channels[ch.toNat]? = some c ∧ csrOf k = some r := by
  obtain ⟨hch, hk⟩ := not_or.mp h
  obtain ⟨r, hr⟩ := Option.isSome_iff_exists.mp ((csrOf_isSome k).mpr (Nat.lt_of_not_ge hk))
  exact ⟨_, r, List.getElem?_eq_getElem (Nat.lt_of_not_ge hch), hr⟩

/-- A host operation whose operands are legal never answers IllegalOp (R93). -/
theorem exec_not_illegalOp {i : Instr} {t : Transaction} {s s' : State} {r : Response} (hhost : encode i = .host t)
    (hlegal : ¬ IllegalOperands s.channels.length i) (he : exec i s = .next s')
    (hr : s'.responses = s.responses ++ [r]) : r.status ≠ .illegalOp := by
  have answers {st : Status} {d : Data} {u : State} (hne : st ≠ .illegalOp) (h : exec i s = .next u)
      (hu : u.responses = s.responses ++ [⟨st, d⟩]) : r.status ≠ .illegalOp := by
    obtain rfl := Host.Outcome.next.inj (h.symm.trans he)
    obtain rfl : ⟨st, d⟩ = r := List.singleton_inj.mp (List.append_cancel_left (hu.symm.trans hr))
    exact hne
  cases i with
  | feed ch b =>
    rcases execFeed_cases ch b s with ⟨hc, -⟩ | ⟨c, -, -, h⟩ | ⟨c, us, c', -, -, -, h⟩
    · exact absurd (List.getElem?_eq_none_iff.mp hc) hlegal
    · obtain rfl := Host.Outcome.next.inj (h.symm.trans he)
      simp at hr
    · exact answers (by decide) h rfl
  | encode control address payload =>
    rcases execEncode_cases control address payload s with h | h
    · exact answers (by decide) h rfl
    · exact answers (by decide) h rfl
  | decode f =>
    rcases execDecode_cases f s with ⟨k, -, h⟩ | ⟨d, -, h⟩
    · exact answers (by simp) h rfl
    · exact answers (by decide) h rfl
  | csrRd ch k =>
    obtain ⟨c, reg, hc, hk⟩ := exists_channel_and_register hlegal
    exact answers (by decide) (csrRd_answers hc hk) rfl
  | csrWr ch k v =>
    obtain ⟨c, reg, hc, hk⟩ := exists_channel_and_register hlegal
    exact answers (by decide) (csrWr_answers v hc hk) rfl
  | _ => cases hhost

/-! ### Conditions 1, 2 and 4: the transaction does not decode -/

/-- ENCODE refuses bits 11:8 and a wrong count of operand bytes (R89). -/
theorem decodeEncode_error {t : Transaction} {e : Illegal} (h : decodeEncode t = .error e) :
    t.header.ch ≠ 0#4 ∨ t.ops.length ≠ t.header.imm.toNat + 2 := by
  by_contra hboth
  obtain ⟨hch, hlen⟩ := not_or.mp hboth
  rw [not_not] at hch hlen
  rcases hops : t.ops with _ | ⟨control, _ | ⟨address, payload⟩⟩
  · simp [hops] at hlen
  · simp [hops] at hlen
  · have hpayload : payload.length = t.header.imm.toNat := by simpa [hops] using hlen
    simp [decodeEncode, hch, hops, hpayload] at h

/-- A transaction that decodes to nothing meets one of R93's conditions. -/
theorem illegalTransaction_of_error {t : Transaction} {e : Illegal} (n : Nat) (h : decodeHost t = .error e) :
    IllegalTransaction n t := by
  simp only [IllegalTransaction, ← t.header.op_toNat, ← t.header.ch_toNat, ← t.header.imm_toNat, ← t.header.len_toNat]
  unfold decodeHost at h
  split at h
  · have hops : t.ops.length ≠ 0 := fun h0 => by simp [decodeFeed, List.length_eq_zero_iff.mp h0] at h
    exact .inr (.inr (.inr (.inl (.inl ⟨.inl ‹_›, hops⟩))))
  · rcases decodeEncode_error h with hfield | hops
    · exact .inr (.inl ⟨‹_›, fun h0 => hfield (BitVec.eq_of_toNat_eq h0)⟩)
    · exact .inr (.inr (.inr (.inl (.inr (.inl ⟨‹_›, hops⟩)))))
  · have hops : t.ops.length ≠ t.header.len.toNat := fun h0 => by simp [decodeDecode, h0] at h
    exact .inr (.inr (.inr (.inl (.inr (.inr (.inl ⟨‹_›, hops⟩))))))
  · have hops : t.ops.length ≠ 0 := fun h0 => by simp [decodeCsrRd, List.length_eq_zero_iff.mp h0] at h
    exact .inr (.inr (.inr (.inl (.inl ⟨.inr ‹_›, hops⟩))))
  · have hops : t.ops.length ≠ 4 := fun h0 => by
      obtain ⟨o0, o1, o2, o3, h4⟩ := List.length_eq_four.mp h0
      simp [decodeCsrWr, h4] at h
    exact .inr (.inr (.inr (.inl (.inr (.inr (.inr ⟨‹_›, hops⟩))))))
  · rename_i h1 h2 h3 h4 h5
    have hreserved : t.header.op.toNat ≠ 1 ∧ t.header.op.toNat ≠ 2 ∧ t.header.op.toNat ≠ 3 ∧ t.header.op.toNat ≠ 4 ∧
        t.header.op.toNat ≠ 5 := ⟨h1, h2, h3, h4, h5⟩
    exact .inl (by omega)

/-! ### The step -/

/-- A FEED that is not accepted changes nothing (R141). -/
theorem exec_of_notAccepted {i : Instr} {s : State} (h : notAccepted i s = true) : exec i s = .next s := by
  cases i with
  | feed ch b =>
    cases hc : s.channels[ch.toNat]? with
    | none => simp [notAccepted, hc] at h
    | some c => exact execFeed_full hc (by simpa [notAccepted, hc] using h)
  | _ => cases h

/-- A step with a FEED held answers nothing: it stays, is withdrawn, or a reset ends it (R141, R231). -/
theorem step_of_notAccepted_responses {s s' : State} {t : Transaction} {rest : List HostEvent} {i : Instr}
    (hf : s.feed = none) (hp : s.pending = .issue t :: rest) (hd : decodeHost t = .ok i) (hheld : notAccepted i s = true)
    (hstep : step s = .next s') : s'.responses = s.responses := by
  have hfetch : fetch s = heldFeed i rest s := by simp [fetch, hf, hp, fetchTransaction, hd, hheld]
  rw [step, hfetch] at hstep
  have hstays (he : exec i s = .next s') : s'.responses = s.responses :=
    congrArg State.responses (Host.Outcome.next.inj (he.symm.trans (exec_of_notAccepted hheld)))
  rcases rest with _ | ⟨_ | _ | _, rest⟩
  · exact hstays hstep
  · exact hstays hstep
  · obtain rfl := Host.Outcome.next.inj hstep
    rfl
  · obtain rfl := Host.Outcome.next.inj hstep
    rfl

/-- A transaction that does not decode raises IllegalOp (R93, R204). -/
theorem step_of_error {s : State} {t : Transaction} {rest : List HostEvent} {e : Illegal} (hf : s.feed = none)
    (hp : s.pending = .issue t :: rest) (hd : decodeHost t = .error e) :
    step s = .next (answered { s with pending := rest } .illegalOp .none) := by
  simp only [step, fetch, hf, hp, fetchTransaction, hd]
  rfl

/-- Settles O5: by the transaction's decoding; of an instruction only the operands can still be illegal. -/
theorem illegalTransactionsAnswerIllegalOp : Obligations.IllegalTransactionsAnswerIllegalOp := by
  intro s t rest hf hp
  cases hd : decodeHost t with
  | error e =>
    exact ⟨fun _ => step_of_error hf hp hd, fun hlegal => absurd (illegalTransaction_of_error _ hd) hlegal⟩
  | ok i =>
    obtain ⟨hwf, he⟩ := acceptedTransactionIsItsEncoding t i hd
    rw [illegalTransaction_iff_of_encode _ hwf he]
    refine ⟨fun hill => ?_, fun hlegal s' r hstep hr => ?_⟩
    · rw [step_of_transaction hf hp hd (notAccepted_of_illegalOperands hill)]
      exact exec_of_illegalOperands hill
    · cases hheld : notAccepted i s with
      | true => simp [step_of_notAccepted_responses hf hp hd hheld hstep] at hr
      | false =>
        rw [step_of_transaction hf hp hd hheld] at hstep
        exact exec_not_illegalOp (s := { s with pending := rest }) he hlegal hstep hr

end Sys2Proof.Machine
end

section
/-! CLAIM. O18, O25, O51: long inputs, DRAIN's one result, and the byte record of a unit. -/

namespace Sys2Proof.Machine

/-- Settles O18: no frame is longer than 261 bytes, so the check of the size is the last one reached. -/
theorem longInputsNeverDecode : Obligations.LongInputsNeverDecode := by
  intro f hlong
  have hmin : ¬ f.length < 6 := by omega
  have hsize : f.length ≠ frameLen (byteAt f 1) := by
    have := (frameLen_bounds (byteAt f 1)).2
    omega
  by_cases hstart : byteAt f 0 ≠ Config.START ∨ byteAt f 3 ≠ Config.START
  · left
    simp only [dec]
    rw [if_neg hmin, if_pos hstart]
  by_cases hcopies : byteAt f 1 ≠ byteAt f 2
  · right; left
    simp only [dec]
    rw [if_neg hmin, if_neg hstart, if_pos hcopies]
  · right; right
    simp only [dec]
    rw [if_neg hmin, if_neg hstart, if_neg hcopies, if_pos (.inl hsize)]

/-- Settles O25: every run is inverted by the action its buffer selects. -/
theorem drainHasOneResult : Obligations.DrainHasOneResult := fun _ _ _ _ _ h₁ h₂ => h₁.unique h₂

/-- What holds of a sequence that decodes: the size of R83, and its fields in their places (R116, R123). -/
theorem dec_ok_layout {f : List Byte} {d : Frame} (h : dec f = .ok d) :
    f.length = frameLen (byteAt f 1) ∧ 2 ≤ (byteAt f 1).toNat ∧
      d = ⟨byteAt f 4, byteAt f 5, slice f 6 (4 + (byteAt f 1).toNat)⟩ := by
  unfold dec at h
  simp only at h
  split_ifs at h with _ _ _ hsize
  obtain ⟨hlen, hmin⟩ := not_or.mp hsize
  exact ⟨not_not.mp hlen, Nat.le_of_not_lt hmin, (Except.ok.inj h).symm⟩

/-- The fields of a frame, by their places in its bytes (R95). -/
theorem fields_of_dec {raw payload : List Byte} {control address : Byte}
    (h : dec raw = .ok ⟨control, address, payload⟩) :
    raw[4]? = some control ∧ raw[5]? = some address ∧ payload = (raw.drop 6).take (raw.length - 8) := by
  obtain ⟨hlen, hmin, hd⟩ := dec_ok_layout h
  obtain ⟨rfl, rfl, rfl⟩ := Frame.mk.inj hd
  unfold frameLen at hlen
  refine ⟨getElem?_eq_byteAt (by omega), getElem?_eq_byteAt (by omega), ?_⟩
  rw [slice, show raw.length - 8 = 4 + (byteAt raw 1).toNat - 6 by omega]

/-- The two length bytes give any length up to 65535, least significant first (R65). -/
theorem lengthBytes_toNat {n : Nat} (h : n ≤ 65535) :
    (BitVec.ofNat 8 n).toNat + 256 * (BitVec.ofNat 8 (n / 256)).toNat = n := by
  simp only [BitVec.toNat_ofNat]
  omega

/-- The codes of the four kinds a FrameErr may have (R155, R200). -/
theorem StreamUnit.Legal.code_cases {k : DecodeError} {raw : List Byte} (h : (StreamUnit.frameErr k raw).Legal) :
    k.code = 0x02#8 ∨ k.code = 0x04#8 ∨ k.code = 0x05#8 ∨ k.code = 0x06#8 := by
  obtain ⟨-, rfl | ⟨rfl, -⟩ | rfl | rfl⟩ := h
  · exact .inl rfl
  · exact .inr (.inl rfl)
  · exact .inr (.inr (.inl rfl))
  · exact .inr (.inr (.inr rfl))

/-- Settles O51: the record is the layout of R95 as it stands; what a legal unit adds is by its kind. -/
theorem unitRecordHasItsLayout : Obligations.UnitRecordHasItsLayout := by
  intro u hlen
  refine ⟨u.tag, u.kind, _, _, rfl, lengthBytes_toNat hlen, ?_⟩
  cases u with
  | frameOk control address payload raw => exact ⟨rfl, rfl, fields_of_dec⟩
  | frameErr k raw => exact ⟨rfl, rfl, StreamUnit.Legal.code_cases⟩
  | text raw => exact ⟨rfl, rfl⟩

end Sys2Proof.Machine
end

section
/-! CLAIM. O52, O53: the assembler's operand ranges (R101) and its pseudo-instructions (R100). -/

namespace Sys2Proof.Machine

/-! ### Operands (R101) -/

/-- A channel is 0..15. -/
theorem asmCh_eq (n : Nat) : asmCh n = if n < 16 then .ok (BitVec.ofNat 4 n) else .error .outOfRange := by
  unfold asmCh inRange
  split <;> rfl

/-- A byte or an index is 0..255. -/
theorem asmByte_eq (n : Nat) : asmByte n = if n < 256 then .ok (BitVec.ofNat 8 n) else .error .outOfRange := by
  unfold asmByte inRange
  split <;> rfl

/-- A CSR value is 0..2^32-1. -/
theorem asmWord_eq (n : Nat) : asmWord n = if n < 2 ^ 32 then .ok (BitVec.ofNat 32 n) else .error .outOfRange := by
  unfold asmWord inRange
  split <;> rfl

/-- What follows a range check runs where the check passes; the error ends the line. -/
theorem ite_bind_outOfRange {α β : Type} (p : Prop) [Decidable p] (a : α) (k : α → Except AsmError β) :
    ((if p then .ok a else .error .outOfRange) >>= k) = if p then k a else .error .outOfRange := by
  split <;> rfl

/-- A list of at most `most` bytes, each written as its number, is that list. -/
theorem asmBytes_toNat {most : Nat} {bs : List Byte} (h : bs.length ≤ most) :
    asmBytes most (bs.map BitVec.toNat) = .ok bs := by
  have hbytes : ∀ b ∈ bs.map BitVec.toNat, b < 256 := by
    simp only [List.mem_map]
    rintro _ ⟨b, -, rfl⟩
    exact b.isLt
  have hback : (bs.map BitVec.toNat).map (BitVec.ofNat 8) = bs := by
    rw [List.map_map]
    exact List.map_id'' (fun b => by simp) bs
  rw [asmBytes, if_pos ⟨by simpa using h, hbytes⟩, hback]

/-- A list with a number that is no byte is refused. -/
theorem asmBytes_of_not_byte {most : Nat} {bs : List Nat} (h : ∃ b ∈ bs, 256 ≤ b) :
    asmBytes most bs = .error .outOfRange := by
  obtain ⟨b, hb, hbig⟩ := h
  exact if_neg fun hall => Nat.not_lt_of_ge hbig (hall.2 b hb)

/-- A list that is too long is refused. -/
theorem asmBytes_of_too_long {most : Nat} {bs : List Nat} (h : most < bs.length) :
    asmBytes most bs = .error .outOfRange :=
  if_neg fun hall => Nat.not_le_of_gt h hall.1

/-- Masking to the low byte is reduction modulo 256. -/
theorem lowByte_eq (n : Nat) : lowByte n = BitVec.ofNat 8 (n % 256) := by
  apply BitVec.eq_of_toNat_eq
  simp [lowByte]

/-! ### Statements -/

/-- A payload the range check refuses makes the two short forms of ENCODE errors (R100, R101). -/
theorem assemble_encode_forms_of_refused {bs : List Nat} (h : asmBytes 255 bs = .error .outOfRange) (adr : Nat) :
    assemble (.encodeDefault bs) = .error .outOfRange ∧ assemble (.reply adr bs) = .error .outOfRange := by
  simp only [assemble, Config.ENCODE_MAX_eq, h]
  exact ⟨rfl, rfl⟩

/-- A payload the range check refuses makes SENDF an error on every channel (R100, R101). -/
theorem assemble_sendf_of_refused {bs : List Nat} (h : asmBytes 253 bs = .error .outOfRange) (ch ctl adr : Nat) :
    assemble (.sendf ch ctl adr bs) = .error .outOfRange := by
  simp only [assemble, Config.MAX_PAYLOAD_eq, h, asmCh_eq, ite_bind_outOfRange]
  split <;> rfl

/-- A byte out of range makes FEEDS an error on every channel (R101). -/
theorem assemble_feeds_of_not_byte {bs : List Nat} (h : ∃ b ∈ bs, 256 ≤ b) (ch : Nat) :
    assemble (.feeds ch bs) = .error .outOfRange := by
  simp only [assemble, asmBytes_of_not_byte h, asmCh_eq, ite_bind_outOfRange]
  split <;> rfl

/-- Settles O53: each operand's check stands before what follows it, and every refusal is the same error. -/
theorem assemblerChecksItsRanges : Obligations.AssemblerChecksItsRanges := by
  refine ⟨fun ch b => ?_, fun ch k => ?_, fun ch k v => ?_, fun ctl adr bs => ?_, fun bs => ?_,
    fun ch ctl adr bs hbyte => ?_, fun adr bs hlong => ?_, fun ch bs hch => ?_⟩
  · simp only [assemble, asmCh_eq, asmByte_eq, ite_bind_outOfRange, ite_and]
    rfl
  · simp only [assemble, asmCh_eq, asmByte_eq, ite_bind_outOfRange, ite_and]
    rfl
  · simp only [assemble, asmCh_eq, asmByte_eq, asmWord_eq, ite_bind_outOfRange, ite_and]
    rfl
  · simp only [assemble, asmBytes, lowByte_eq, ite_bind_outOfRange]
    rfl
  · simp only [assemble, asmBytes, ite_bind_outOfRange]
    rfl
  · obtain ⟨hencode, hreply⟩ := assemble_encode_forms_of_refused (asmBytes_of_not_byte hbyte) adr
    exact ⟨assemble_feeds_of_not_byte hbyte ch, hencode, hreply,
      assemble_sendf_of_refused (asmBytes_of_not_byte hbyte) ch ctl adr⟩
  · exact assemble_encode_forms_of_refused (asmBytes_of_too_long hlong) adr
  · have hno : asmCh ch = .error .outOfRange := by rw [asmCh_eq, if_neg (Nat.not_lt_of_ge hch)]
    simp only [assemble, hno]
    exact ⟨rfl, rfl, rfl, rfl, fun _ _ => rfl⟩

/-- Settles O52: operands in range pass their checks unchanged. -/
theorem pseudoInstructionsExpand : Obligations.PseudoInstructionsExpand := by
  intro ch adr ctl bs hrange
  have hch : asmCh ch = .ok (BitVec.ofNat 4 ch) := by rw [asmCh_eq, if_pos hrange]
  refine ⟨?_, ?_, ?_, ?_, fun hlen => ⟨?_, ?_⟩, fun hlen => ?_, fun hlong => ?_⟩
  · have hbs : asmBytes (bs.map BitVec.toNat).length (bs.map BitVec.toNat) = .ok bs := asmBytes_toNat (by simp)
    simp only [assemble, hch, hbs]
    rfl
  · simp only [assemble, hch]
    rfl
  · simp only [assemble, hch]
    rfl
  · simp only [assemble, hch]
    rfl
  · simp only [assemble, Config.ENCODE_MAX_eq, asmBytes_toNat hlen]
    rfl
  · simp only [assemble, Config.ENCODE_MAX_eq, asmBytes_toNat hlen]
    rfl
  · simp only [assemble, hch, Config.MAX_PAYLOAD_eq, asmBytes_toNat hlen]
    rfl
  · exact assemble_sendf_of_refused (asmBytes_of_too_long (by simpa using hlong)) ch ctl adr

end Sys2Proof.Machine
end

section
/-! SUPPORT. The checks of DEC one by one (R116 to R123), the layout of a frame (R80), and the checksum (R110). -/

namespace Sys2Proof.Machine

/-! ### The checksum -/

@[simp] theorem byteSum_cons (b : Byte) (s : List Byte) : byteSum (b :: s) = b.toNat + byteSum s := by simp [byteSum]

/-- The checksum's value (R110). -/
theorem cksum_toNat (s : List Byte) : (cksum s).toNat = byteSum s % 256 := BitVec.toNat_ofNat ..

/-- The checksum of a frame's body, as the sum of its parts (R85, R111). -/
theorem cksum_body (control address : Byte) (payload : List Byte) : cksum (control :: address :: payload) =
    BitVec.ofNat 8 (control.toNat + address.toNat + (payload.map BitVec.toNat).sum) := by
  rw [cksum, byteSum_cons, byteSum_cons, ← Nat.add_assoc]
  rfl

/-- One byte replaced by another changes the sum by their difference. -/
theorem byteSum_set {s : List Byte} {i : Nat} {old : Byte} (h : s[i]? = some old) (b : Byte) :
    byteSum (s.set i b) + old.toNat = byteSum s + b.toNat := by
  induction s generalizing i with
  | nil => simp at h
  | cons x xs ih =>
    cases i with
    | zero =>
      obtain rfl : x = old := by simpa using h
      simp only [List.set_cons_zero, byteSum_cons]
      omega
    | succ i =>
      have := ih (i := i) (by simpa using h)
      simp only [List.set_cons_succ, byteSum_cons]
      omega

/-- A byte changed anywhere changes the checksum: the difference is not 0 and below 256 (R128). -/
theorem cksum_set_ne {s : List Byte} {i : Nat} {old b : Byte} (h : s[i]? = some old) (hne : old ≠ b) :
    cksum (s.set i b) ≠ cksum s := by
  intro heq
  have hsum := byteSum_set h b
  have hmod := congrArg BitVec.toNat heq
  simp only [cksum_toNat] at hmod
  have hold := old.isLt
  have hb := b.isLt
  exact hne (BitVec.eq_of_toNat_eq (by omega))

/-! ### The checks of DEC, in their order (R126) -/

/-- Checks 1 to 4 pass: the sequence has the markers, the agreeing length bytes and the size of a frame (R117 to R120). -/
structure Framed (f : List Byte) : Prop where
  start0 : byteAt f 0 = Config.START
  start3 : byteAt f 3 = Config.START
  copies : byteAt f 1 = byteAt f 2
  size : f.length = (byteAt f 1).toNat + 6
  body : 2 ≤ (byteAt f 1).toNat

section Checks
variable {f : List Byte}

/-- Check 1 (R117). -/
theorem dec_tooShort (h : f.length < 6) : dec f = .error .tooShort := if_pos h

/-- Check 2 (R118). -/
theorem dec_badStart (h6 : 6 ≤ f.length) (h : byteAt f 0 ≠ Config.START ∨ byteAt f 3 ≠ Config.START) :
    dec f = .error .badStart := by
  simp only [dec]
  rw [if_neg (by simpa using h6), if_pos h]

/-- Check 3 (R119). -/
theorem dec_lengthMismatch (h6 : 6 ≤ f.length) (h0 : byteAt f 0 = Config.START) (h3 : byteAt f 3 = Config.START)
    (h : byteAt f 1 ≠ byteAt f 2) : dec f = .error .lengthMismatch := by
  simp only [dec]
  rw [if_neg (by simpa using h6), if_neg (by simp [h0, h3]), if_pos h]

/-- Check 4 (R120). -/
theorem dec_sizeMismatch (h6 : 6 ≤ f.length) (h0 : byteAt f 0 = Config.START) (h3 : byteAt f 3 = Config.START)
    (h12 : byteAt f 1 = byteAt f 2) (h : f.length ≠ frameLen (byteAt f 1) ∨ (byteAt f 1).toNat < 2) :
    dec f = .error .sizeMismatch := by
  simp only [dec]
  rw [if_neg (by simpa using h6), if_neg (by simp [h0, h3]), if_neg (not_not.mpr h12), if_pos h]

/-- Checks 5 and 6, and the fields (R121 to R123). -/
theorem dec_of_framed (hf : Framed f) :
    dec f = if cksum (slice f 4 (4 + (byteAt f 1).toNat)) ≠ byteAt f (4 + (byteAt f 1).toNat) then
        .error .checksumMismatch
      else if byteAt f (5 + (byteAt f 1).toNat) ≠ Config.END then .error .badEnd
      else .ok ⟨byteAt f 4, byteAt f 5, slice f 6 (4 + (byteAt f 1).toNat)⟩ := by
  obtain ⟨h0, h3, h12, hsize, hbody⟩ := hf
  have h6 : ¬ f.length < 6 := by omega
  have h4 : ¬ (f.length ≠ frameLen (byteAt f 1) ∨ (byteAt f 1).toNat < 2) := by unfold frameLen; omega
  simp only [dec]
  rw [if_neg h6, if_neg (by simp [h0, h3]), if_neg (not_not.mpr h12), if_neg h4]

/-- A sequence that decodes passes all six checks (R123). -/
theorem checks_of_dec_ok {d : Frame} (h : dec f = .ok d) : Framed f ∧
    cksum (slice f 4 (4 + (byteAt f 1).toNat)) = byteAt f (4 + (byteAt f 1).toNat) ∧
    byteAt f (5 + (byteAt f 1).toNat) = Config.END := by
  obtain ⟨hsize, hbody, -⟩ := dec_ok_layout h
  unfold dec at h
  simp only at h
  split_ifs at h with _ hstart hcopies _ hsum hend
  obtain ⟨h0, h3⟩ := not_or.mp hstart
  exact ⟨⟨not_not.mp h0, not_not.mp h3, not_not.mp hcopies, hsize, hbody⟩, not_not.mp hsum, not_not.mp hend⟩

end Checks

/-! ### The layout of a frame (R80) -/

/-- A frame with its six fields, the checksum and the closing marker not yet checked. -/
def frameOf (l control address : Byte) (payload : List Byte) (k e : Byte) : List Byte :=
  [Config.START, l, l, Config.START, control, address] ++ payload ++ [k, e]

/-- The encoder's output (R111). -/
theorem enc_eq_frameOf (control address : Byte) (payload : List Byte) : enc control address payload =
    frameOf (BitVec.ofNat 8 (2 + payload.length)) control address payload (cksum (control :: address :: payload))
      Config.END := rfl

section Layout
variable {l control address k e : Byte} {payload : List Byte}

@[simp] theorem length_frameOf : (frameOf l control address payload k e).length = payload.length + 8 := by
  simp [frameOf]

/-- With the payload's length in its length byte a frame passes checks 1 to 4. -/
theorem framed_frameOf (hl : payload.length + 2 = l.toNat) : Framed (frameOf l control address payload k e) where
  start0 := rfl
  start3 := rfl
  copies := rfl
  size := by
    show _ = l.toNat + 6
    rw [length_frameOf]
    omega
  body := by
    show 2 ≤ l.toNat
    omega

/-- DEC of a frame with the payload's length in its length byte: what is left are the checksum and END (R121, R122). -/
theorem dec_frameOf (hl : payload.length + 2 = l.toNat) : dec (frameOf l control address payload k e) =
    if cksum (control :: address :: payload) ≠ k then .error .checksumMismatch
    else if e ≠ Config.END then .error .badEnd
    else .ok ⟨control, address, payload⟩ := by
  have hlen : byteAt (frameOf l control address payload k e) 1 = l := rfl
  have hbody : slice (frameOf l control address payload k e) 4 (4 + l.toNat) = control :: address :: payload := by
    show ((control :: address :: payload) ++ [k, e]).take (4 + l.toNat - 4) = _
    exact List.take_left' (by simp; omega)
  have hpayload : slice (frameOf l control address payload k e) 6 (4 + l.toNat) = payload := by
    show (payload ++ [k, e]).take (4 + l.toNat - 6) = _
    exact List.take_left' (by omega)
  have hsum : byteAt (frameOf l control address payload k e) (4 + l.toNat) = k := by
    refine byteAt_of_getElem? ?_
    rw [frameOf, List.getElem?_append_right (by simp; omega)]
    simp [show 4 + l.toNat - (payload.length + 6) = 0 by omega]
  have hend : byteAt (frameOf l control address payload k e) (5 + l.toNat) = e := by
    refine byteAt_of_getElem? ?_
    rw [frameOf, List.getElem?_append_right (by simp; omega)]
    simp [show 5 + l.toNat - (payload.length + 6) = 1 by omega]
  rw [dec_of_framed (framed_frameOf hl), hlen, hbody, hpayload, hsum, hend]
  rfl

end Layout

/-- A sequence that passes checks 1 to 4 has the layout, its length byte giving the payload's length (R120). -/
theorem Framed.exists_frameOf {f : List Byte} (h : Framed f) : ∃ l control address payload k e,
    f = frameOf l control address payload k e ∧ payload.length + 2 = l.toNat := by
  obtain ⟨h0, h3, h12, hsize, hbody⟩ := h
  obtain ⟨x0, l, x2, x3, control, address, tail, rfl⟩ :
      ∃ x0 l x2 x3 control address tail, f = x0 :: l :: x2 :: x3 :: control :: address :: tail := by
    have h6 : 6 ≤ f.length := by omega
    rcases f with _ | ⟨x0, _ | ⟨x1, _ | ⟨x2, _ | ⟨x3, _ | ⟨x4, _ | ⟨x5, tail⟩⟩⟩⟩⟩⟩
    iterate 6 · simp at h6
    exact ⟨_, _, _, _, _, _, _, rfl⟩
  obtain rfl : x0 = Config.START := h0
  obtain rfl : x3 = Config.START := h3
  obtain rfl : l = x2 := h12
  have hl : tail.length + 6 = l.toNat + 6 := hsize
  have h2 : 2 ≤ l.toNat := hbody
  obtain ⟨k, e, hke⟩ := List.length_eq_two.mp (show (tail.drop (l.toNat - 2)).length = 2 by simp; omega)
  refine ⟨l, control, address, tail.take (l.toNat - 2), k, e, ?_, by simp; omega⟩
  rw [frameOf, ← hke, List.append_assoc, List.take_append_drop]
  rfl

end Sys2Proof.Machine
end

section
/-! CLAIM. O11, O12, O13, O14, O15, O16: the checksum, ENCODE, DECODE, and the two round trips. -/

namespace Sys2Proof.Machine

open Claims

/-- Settles O11: the checksum is the exact sum, kept to eight bits. -/
theorem checksumIsSumModulo256 : Obligations.ChecksumIsSumModulo256 := cksum_toNat

/-! ### ENCODE -/

/-- A frame's bytes as R80 lists them, the checksum as the sum of its parts. -/
theorem enc_layout (control address : Byte) (payload : List Byte) : enc control address payload =
    [0x68#8, BitVec.ofNat 8 (payload.length + 2), BitVec.ofNat 8 (payload.length + 2), 0x68#8, control, address]
      ++ payload ++ [BitVec.ofNat 8 (control.toNat + address.toNat + (payload.map BitVec.toNat).sum), 0x16#8] := by
  rw [enc_eq_frameOf, cksum_body, Nat.add_comm 2]
  rfl

/-- A frame is its payload and 8 bytes more (R83). -/
@[simp] theorem length_enc (control address : Byte) (payload : List Byte) :
    (enc control address payload).length = payload.length + 8 := by
  rw [enc_eq_frameOf, length_frameOf]

/-- Settles O12: the length check passes, and the answer is the encoder's frame. -/
theorem encodeAnswersTheFrame : Obligations.EncodeAnswersTheFrame := by
  intro s control address payload hlen
  have hexec : exec (.encode control address payload) s =
      .next (answered s .ok (.bytes (enc control address payload))) := if_neg (Nat.not_lt_of_ge hlen)
  exact ⟨_, hexec, length_enc .., enc_layout ..⟩

/-- Settles O13: the length check fails. -/
theorem encodeTooLongAnswersNoBytes : Obligations.EncodeTooLongAnswersNoBytes := fun _ _ _ _ hlen => if_pos hlen

/-! ### The round trips -/

/-- The length byte of a frame of at most 253 payload bytes does not wrap (R111). -/
theorem lengthByte_toNat {n : Nat} (h : n ≤ 253) : n + 2 = (BitVec.ofNat 8 (2 + n)).toNat := by
  rw [BitVec.toNat_ofNat]
  omega

/-- Settles O15: the encoder's frame has the layout, its checksum and END. -/
theorem decodeOfEncodeIsTheInputs : Obligations.DecodeOfEncodeIsTheInputs := by
  intro control address payload hlen
  rw [enc_eq_frameOf, dec_frameOf (lengthByte_toNat hlen), if_neg (not_not.mpr rfl), if_neg (not_not.mpr rfl)]

/-- Settles O16: a sequence that decodes has the layout, and checks 5 and 6 give it the encoder's last two bytes. -/
theorem encodeOfDecodeIsTheFrame : Obligations.EncodeOfDecodeIsTheFrame := by
  intro f control address payload hdec
  obtain ⟨l, c, a, p, k, e, rfl, hl⟩ := (checks_of_dec_ok hdec).1.exists_frameOf
  rw [dec_frameOf hl] at hdec
  split_ifs at hdec with hsum hend
  obtain ⟨rfl, rfl, rfl⟩ := Frame.mk.inj (Except.ok.inj hdec)
  rw [enc_eq_frameOf, not_not.mp hsum, not_not.mp hend, Nat.add_comm 2, hl, BitVec.ofNat_toNat, BitVec.setWidth_eq]

/-! ### DECODE -/

/-- DECODE of a sequence that fails (R124). -/
theorem decode_answers_error {f : List Byte} {k : DecodeError} (s : State) (h : dec f = .error k) :
    exec (.decode f) s = .next (answered s (.decodeError k) .none) := by
  rw [exec, execDecode, h]
  rfl

/-- DECODE of a frame (R123). -/
theorem decode_answers_ok {f : List Byte} {d : Frame} (s : State) (h : dec f = .ok d) :
    exec (.decode f) s = .next (answered s .ok (.fields d)) := by
  rw [exec, execDecode, h]
  rfl

/-- Check 5 as a comparison of numbers (R121). -/
theorem cksum_eq_iff (control address k : Byte) (payload : List Byte) : cksum (control :: address :: payload) = k ↔
    k.toNat = (control.toNat + address.toNat + (payload.map BitVec.toNat).sum) % 256 := by
  rw [cksum_body, ← BitVec.toNat_inj, BitVec.toNat_ofNat, eq_comm]

/-- Settles O14: each clause is one of DEC's checks, the ones before it passing. -/
theorem decodeAnswersTheFirstFailingCheck : Obligations.DecodeAnswersTheFirstFailingCheck := by
  intro s f
  refine ⟨fun hshort => decode_answers_error s (dec_tooShort hshort), fun h6 hstart => ?_, fun h6 h0 h3 =>
    ⟨fun hcopies => ?_, fun l h1 h2 => ⟨fun hsize => ?_, ?_⟩⟩⟩
  · rw [getElem?_eq_byteAt (by omega), getElem?_eq_byteAt (by omega)] at hstart
    exact decode_answers_error s (dec_badStart h6 (by simpa using hstart))
  · rw [getElem?_eq_byteAt (by omega), getElem?_eq_byteAt (by omega)] at hcopies
    exact decode_answers_error s
      (dec_lengthMismatch h6 (byteAt_of_getElem? h0) (byteAt_of_getElem? h3) (by simpa using hcopies))
  · obtain rfl := byteAt_of_getElem? h1
    exact decode_answers_error s (dec_sizeMismatch h6 (byteAt_of_getElem? h0) (byteAt_of_getElem? h3)
      (byteAt_of_getElem? h2).symm hsize)
  · intro control address payload k e hlayout hl
    have hdec := dec_frameOf (control := control) (address := address) (k := k) (e := e) hl
    rw [show frameOf l control address payload k e = f from hlayout.symm] at hdec
    refine ⟨fun hsum => ?_, fun hsum => ⟨fun hend => ?_, fun hend => ?_⟩⟩
    · rw [if_pos (mt (cksum_eq_iff ..).mp hsum)] at hdec
      exact decode_answers_error s hdec
    · rw [if_neg (not_not.mpr ((cksum_eq_iff ..).mpr hsum)), if_pos hend] at hdec
      exact decode_answers_error s hdec
    · rw [if_neg (not_not.mpr ((cksum_eq_iff ..).mpr hsum)), if_neg (not_not.mpr hend)] at hdec
      exact decode_answers_ok s hdec

end Sys2Proof.Machine
end

section
/-! CLAIM. O17: the verdict on a frame with one byte changed, added or removed (R128). -/

namespace Sys2Proof.Machine

section ByteAt
variable {f : List Byte} {i j : Nat} {b : Byte}

/-- The byte written is read back. -/
theorem byteAt_set_self (h : i < f.length) : byteAt (f.set i b) i = b :=
  byteAt_of_getElem? (List.getElem?_set_self h)

/-- Every other byte stays. -/
theorem byteAt_set_ne (h : i ≠ j) : byteAt (f.set i b) j = byteAt f j := by
  simp [byteAt, List.getD_eq_getElem?_getD, List.getElem?_set_ne h]

/-- A byte of a slice is the byte at its place in the sequence (R17). -/
theorem getElem?_slice {m n : Nat} (hm : m ≤ i) (hn : i < n) : (slice f m n)[i - m]? = f[i]? := by
  rw [slice, List.getElem?_take_of_lt (by omega), List.getElem?_drop, Nat.add_sub_cancel' hm]

/-- A byte written from the slice's start on is written in the slice. -/
theorem slice_set {m n : Nat} (hm : m ≤ i) : slice (f.set i b) m n = (slice f m n).set (i - m) b := by
  rw [slice, List.drop_set, if_neg (Nat.not_lt_of_ge hm), List.take_set]
  rfl

/-- A byte written past the slice leaves it. -/
theorem slice_set_past {m n : Nat} (hm : m ≤ i) (hn : n ≤ i) : slice (f.set i b) m n = slice f m n := by
  rw [slice_set hm, List.set_eq_of_length_le]
  rw [slice, List.length_take]
  omega

/-- The head of a sequence has the bytes of the whole. -/
theorem byteAt_of_prefix {p : List Byte} (h : p <+: f) (hj : j < p.length) : byteAt p j = byteAt f j := by
  obtain ⟨q, rfl⟩ := h
  simp [byteAt, List.getD_eq_getElem?_getD, List.getElem?_append_left hj]

end ByteAt

section Corruption
variable {f g : List Byte} {d : Frame} {i : Nat} {b : Byte}

/-- Checks 1 to 3 read the length and the first four bytes; a wrong length then fails check 4 (R120). -/
theorem Framed.sizeMismatch_of_length_ne (hf : Framed f) (h6 : 6 ≤ g.length) (hlen : g.length ≠ f.length)
    (hhead : ∀ j < 4, byteAt g j = byteAt f j) : dec g = .error .sizeMismatch := by
  obtain ⟨h0, h3, h12, hsize, -⟩ := hf
  refine dec_sizeMismatch h6 ?_ ?_ ?_ (.inl ?_)
  · rw [hhead 0 (by decide), h0]
  · rw [hhead 3 (by decide), h3]
  · rw [hhead 1 (by decide), hhead 2 (by decide), h12]
  · rw [hhead 1 (by decide), frameLen, ← hsize]
    exact hlen

/-- A START changed fails check 2 (R118). -/
theorem Framed.dec_set_start (hf : Framed f) (hi : i = 0 ∨ i = 3) (hb : b ≠ Config.START) :
    dec (f.set i b) = .error .badStart := by
  have hsize := hf.size
  refine dec_badStart (by rw [List.length_set]; omega) ?_
  rcases hi with rfl | rfl
  · exact .inl (by rwa [byteAt_set_self (by omega)])
  · exact .inr (by rwa [byteAt_set_self (by omega)])

/-- One copy of the length changed fails check 3 (R119). -/
theorem Framed.dec_set_lengthByte (hf : Framed f) (hi : i = 1 ∨ i = 2) (hb : byteAt f i ≠ b) :
    dec (f.set i b) = .error .lengthMismatch := by
  obtain ⟨h0, h3, h12, hsize, -⟩ := hf
  refine dec_lengthMismatch (by rw [List.length_set]; omega) ?_ ?_ ?_
  · rw [byteAt_set_ne (by omega), h0]
  · rw [byteAt_set_ne (by omega), h3]
  · rcases hi with rfl | rfl
    · rw [byteAt_set_self (by omega), byteAt_set_ne (by decide), ← h12]
      exact hb.symm
    · rw [byteAt_set_self (by omega), byteAt_set_ne (by decide), h12]
      exact hb

/-- Checks 1 to 4 read the length and the first four bytes only. -/
theorem Framed.set_of_ge (hf : Framed f) (hi : 4 ≤ i) : Framed (f.set i b) := by
  obtain ⟨h0, h3, h12, hsize, hbody⟩ := hf
  have hhead : ∀ j < 4, byteAt (f.set i b) j = byteAt f j := fun j hj => byteAt_set_ne (by omega)
  constructor
  · rw [hhead 0 (by decide), h0]
  · rw [hhead 3 (by decide), h3]
  · rw [hhead 1 (by decide), hhead 2 (by decide), h12]
  · rw [hhead 1 (by decide), List.length_set, hsize]
  · rw [hhead 1 (by decide)]
    exact hbody

/-- A byte of the body or the checksum changed fails check 5: one side of its comparison changes (R121). -/
theorem dec_set_body (hdec : dec f = .ok d) (h4 : 4 ≤ i) (hi : i ≤ 4 + (byteAt f 1).toNat) (hb : byteAt f i ≠ b) :
    dec (f.set i b) = .error .checksumMismatch := by
  obtain ⟨hf, hsum, -⟩ := checks_of_dec_ok hdec
  have hsize := hf.size
  have hchecked := dec_of_framed (hf.set_of_ge h4 (b := b))
  rw [byteAt_set_ne (show i ≠ 1 by omega)] at hchecked
  rw [hchecked, if_pos]
  rcases Nat.lt_or_eq_of_le hi with hlt | rfl
  · have hold : (slice f 4 (4 + (byteAt f 1).toNat))[i - 4]? = some (byteAt f i) := by
      rw [getElem?_slice h4 hlt, getElem?_eq_byteAt (by omega)]
    rw [slice_set h4, byteAt_set_ne (by omega), ← hsum]
    exact cksum_set_ne hold hb
  · rw [slice_set_past h4 le_rfl, byteAt_set_self (by omega), hsum]
    exact hb

/-- END changed fails check 6 (R122). -/
theorem dec_set_end (hdec : dec f = .ok d) (hb : b ≠ Config.END) :
    dec (f.set (5 + (byteAt f 1).toNat) b) = .error .badEnd := by
  obtain ⟨hf, hsum, -⟩ := checks_of_dec_ok hdec
  have hsize := hf.size
  have hchecked := dec_of_framed (hf.set_of_ge (i := 5 + (byteAt f 1).toNat) (b := b) (by omega))
  rw [byteAt_set_ne (show 5 + (byteAt f 1).toNat ≠ 1 by omega), slice_set_past (by omega) (by omega), byteAt_set_ne (by omega),
    byteAt_set_self (by omega)] at hchecked
  rw [hchecked, if_neg (not_not.mpr hsum), if_pos hb]

end Corruption

/-- Settles O17: by the place of the byte; a byte more or less leaves the head and changes the length. -/
theorem singleByteCorruptionIsDetected : Obligations.SingleByteCorruptionIsDetected := by
  intro f d l hdec hl
  obtain rfl := byteAt_of_getElem? hl
  obtain ⟨hf, -, hend⟩ := checks_of_dec_ok hdec
  have hsize := hf.size
  have hbody := hf.body
  refine ⟨fun i b hi hne => ?_, hf.sizeMismatch_of_length_ne ?_ ?_ ?_, fun b => hf.sizeMismatch_of_length_ne ?_ ?_ ?_⟩
  · rw [getElem?_eq_byteAt hi, ne_eq, Option.some.injEq] at hne
    refine ⟨fun hplace => hf.dec_set_start hplace ?_, fun hplace => hf.dec_set_lengthByte hplace hne,
      fun ⟨h4, hlast⟩ => dec_set_body hdec h4 hlast hne, ?_⟩
    · rintro rfl
      rcases hplace with rfl | rfl
      · exact hne hf.start0
      · exact hne hf.start3
    · rintro rfl
      exact dec_set_end hdec fun hb => hne (hend.trans hb.symm)
  · rw [List.length_dropLast]
    omega
  · rw [List.length_dropLast]
    omega
  · exact fun j hj => byteAt_of_prefix f.dropLast_prefix (by rw [List.length_dropLast]; omega)
  · rw [List.length_append]
    omega
  · simp
  · exact fun j hj => (byteAt_of_prefix (List.prefix_append f [b]) (by omega)).symm

end Sys2Proof.Machine
end

section
/-! CLAIM. O31: a frame fed byte by byte. Every shorter head of it waits, and the last byte selects R_FRAME. -/

namespace Sys2Proof.Machine

section PrefixesOfAFrame
variable {f p : List Byte}

/-- A shorter head of a frame is quiescent: it is empty, a short START, or a body still incomplete (R145, R147). -/
theorem Framed.quiescent_of_prefix (hf : Framed f) (hp : p <+: f) (hshorter : p.length < f.length) : Quiescent p := by
  obtain ⟨h0, -, h12, hsize, -⟩ := hf
  have hread {j : Nat} (hj : j < p.length) : p[j]? = some (byteAt f j) :=
    (getElem?_eq_byteAt hj).trans (congrArg some (byteAt_of_prefix hp hj))
  apply quiescent_of_quiescentShape
  rcases Nat.eq_zero_or_pos p.length with hnil | hpos
  · exact .inl (List.length_eq_zero_iff.mp hnil)
  rcases Nat.lt_or_ge p.length 6 with hshort | h6
  · exact .inr (.inl ⟨(hread hpos).trans (congrArg some h0), hshort⟩)
  · exact .inr (.inr (.inl ⟨(hread hpos).trans (congrArg some h0), byteAt f 1, hread (by omega),
      (hread (by omega)).trans (congrArg some h12.symm), by omega⟩))

/-- DRAIN of exactly one frame that decodes emits its FrameOk and leaves the buffer empty (R148). -/
theorem DrainRun.of_whole_frame {d : Frame} (hdec : dec f = .ok d) (n : Word) (us : List StreamUnit) :
    DrainRun ⟨f, n, us⟩ [.frameOk d.control d.address d.payload f]
      ⟨[], n, us ++ [.frameOk d.control d.address d.payload f]⟩ := by
  obtain ⟨⟨h0, h3, h12, hsize, hbody⟩, -⟩ := checks_of_dec_ok hdec
  have hread {j : Nat} (hj : j < 6) : f[j]? = some (byteAt f j) := getElem?_eq_byteAt (by omega)
  have hsel : sel f = .rFrame := sel_of_frame ((hread (by decide)).trans (congrArg some h0)) (by omega)
    (hread (by decide)) ((hread (by decide)).trans (congrArg some h12.symm)) hsize.ge
  have htake : f.take (frameLen (byteAt f 1)) = f := List.take_of_length_le hsize.le
  have hdrop : f.drop (frameLen (byteAt f 1)) = [] := List.drop_of_length_le hsize.le
  have hrun := DrainRun.frameOk ⟨f, n, us⟩ ⟨[], n, us ++ [.frameOk d.control d.address d.payload f]⟩ [] d hsel
  simp only [htake, hdrop] at hrun
  exact hrun hdec (.stop _ quiescent_nil)

end PrefixesOfAFrame

/-- FEEDs begin with one accepted FEED (R140). -/
theorem feedAll_cons_accepted {ch : BitVec 4} {b : Byte} {bs : List Byte} {s : State} {c c' : Channel}
    {us : List StreamUnit} (hc : s.channels[ch.toNat]? = some c) (haccepted : c.buf.length ≠ s.bufCap)
    (hrun : DrainRun { c with buf := c.buf ++ [b] } us c') :
    feedAll ch (b :: bs) s = feedAll ch bs (fedState s ⟨ch.toNat, []⟩ us c') := by
  have hexec : exec (.feed ch b) s = .next (fedState s ⟨ch.toNat, []⟩ us c') := execFeed_accepted hc haccepted hrun
  simp [feedAll, hc, haccepted, hexec]

/-- FEEDs of the rest of `whole`, whose shorter heads all wait, do what DRAIN does to `whole`. -/
theorem feedAll_of_waiting_prefixes {ch : BitVec 4} {c c' : Channel} {whole : List Byte} {us : List StreamUnit}
    (hwait : ∀ p, p <+: whole → p.length < whole.length → Quiescent p) (hrun : DrainRun { c with buf := whole } us c')
    (rest : List Byte) (hrest : rest ≠ []) : ∀ (held : List Byte) (s : State), held ++ rest = whole →
    s.channels[ch.toNat]? = some { c with buf := held } → whole.length ≤ s.bufCap →
    ∃ t, feedAll ch rest s = some t ∧ t.channels = s.channels.set ch.toNat c' := by
  induction rest with
  | nil => exact absurd rfl hrest
  | cons b bs ih =>
    intro held s hwhole hc hcap
    have hlen : held.length + (bs.length + 1) = whole.length := by rw [← hwhole, List.length_append, List.length_cons]
    have haccepted : held.length ≠ s.bufCap := by omega
    have hwhole' : (held ++ [b]) ++ bs = whole := by rw [List.append_assoc]; exact hwhole
    by_cases hbs : bs = []
    · subst hbs
      rw [List.append_nil] at hwhole'
      subst hwhole'
      exact ⟨_, feedAll_cons_accepted hc haccepted hrun, rfl⟩
    · have hshorter : (held ++ [b]).length < whole.length := by
        have := List.length_pos_of_ne_nil hbs
        rw [List.length_append, List.length_singleton]
        omega
      have hstop := DrainRun.stop { c with buf := held ++ [b] } (hwait _ ⟨bs, hwhole'⟩ hshorter)
      obtain ⟨t, ht, hch⟩ := ih hbs (held ++ [b]) (fedState s ⟨ch.toNat, []⟩ [] { c with buf := held ++ [b] }) hwhole'
        (getElem?_set_of_some hc) hcap
      refine ⟨t, (feedAll_cons_accepted hc haccepted hstop).trans ht, ?_⟩
      rw [hch, fedState_channels, List.set_set]

/-- Settles O31: the encoder's frame decodes to its inputs, so its shorter heads wait and the whole is one FrameOk. -/
theorem encodedFrameIsReassembled : Obligations.EncodedFrameIsReassembled := by
  intro s ch c control address payload hc hempty hcap hlen
  have hdec := decodeOfEncodeIsTheInputs control address payload hlen
  have hframed := (checks_of_dec_ok hdec).1
  refine feedAll_of_waiting_prefixes (fun _ => hframed.quiescent_of_prefix)
    (DrainRun.of_whole_frame hdec c.resyncCnt c.units) _ ?_ [] s (List.nil_append _) ?_ ?_
  · simp [enc]
  · rw [hc, ← hempty]
  · rw [length_enc]
    omega

end Sys2Proof.Machine
end

section
/-! SUPPORT. The step actions as whole next states (R144 to R150), and where they stop. -/

namespace Sys2Proof.Machine

open Claims

section StepActions
variable {s : State} {f : FeedInProgress} {c : Channel}

/-- The exit from DRAIN completes the FEED and leaves its channel as it is (R140, R142, log 9). -/
theorem exitDrain_eq_fed (hc : s.channels[f.ch]? = some c) : s.exitDrain f = fed s f.ch c f.units :=
  congrArg (State.exitDrain · f) (setChannel_self hc).symm

/-- A stop action ends the FEED in progress with its channel as it is (R142). -/
theorem exec_stop {i : Instr} (hf : s.feed = some f) (hc : s.channels[f.ch]? = some c) (hs : sel c.buf = i)
    (hstop : stopAction i = true) : exec i s = .next (fed s f.ch c f.units) := by
  subst hs
  rw [exec_sel, runAction_stop hf hc hstop, exitDrain_eq_fed hc]

/-- R_RESYNC as a progress action without a unit (R146). -/
theorem exec_resync (hf : s.feed = some f) (hc : s.channels[f.ch]? = some c) (hs : sel c.buf = .rResync) :
    exec .rResync s = .next (progressed s f ⟨c.buf.drop 1, c.resyncCnt + 1#32, c.units⟩ []) := by
  refine (runAction_resync hf hc hs).trans ?_
  simp [State.setChannel, progressed, ← hf]

/-- R_FRAME as a progress action with one unit (R148). -/
theorem exec_frame {raw rest : List Byte} (hf : s.feed = some f) (hc : s.channels[f.ch]? = some c)
    (hs : sel c.buf = .rFrame) (hb : c.buf = raw ++ rest) (hlen : raw.length = frameLen (byteAt c.buf 1)) :
    exec .rFrame s = .next (progressed s f ⟨rest, c.resyncCnt, c.units ++ [frameUnit raw]⟩ [frameUnit raw]) := by
  have htake : c.buf.take (frameLen (byteAt c.buf 1)) = raw := by rw [← hlen, hb, List.take_left]
  have hdrop : c.buf.drop (frameLen (byteAt c.buf 1)) = rest := by rw [← hlen, hb, List.drop_left]
  refine (runAction_frame hf hc hs).trans ?_
  rw [htake, Channel.drop, hdrop]
  rfl

/-- R_LINE as a progress action with one unit, by the first NL (R149). -/
theorem exec_line {t rest : List Byte} (hf : s.feed = some f) (hc : s.channels[f.ch]? = some c)
    (hs : sel c.buf = .rLine) (hb : c.buf = t ++ Config.NL :: rest) (ht : Config.NL ∉ t) :
    exec .rLine s = .next (progressed s f ⟨rest, c.resyncCnt, c.units ++ [.text (t ++ [Config.NL])]⟩
      [.text (t ++ [Config.NL])]) := by
  obtain ⟨t', rest', hb', ht', htake, hdrop⟩ := firstLine (line_mem hs)
  obtain ⟨rfl, rfl⟩ := firstLine_unique (hb.symm.trans hb') ht ht'
  refine (runAction_line hf hc hs).trans ?_
  rw [htake, Channel.drop, hdrop]
  rfl

/-- With no FEED in progress a step action stops (log 5). -/
theorem whenSelected_idle {i : Instr} (act : FeedInProgress → Channel → State) (hf : s.feed = none) :
    whenSelected i s act = .fault .stepNotSelected := by
  simp [whenSelected, hf]

/-- Where another action is selected a step action stops (log 5). -/
theorem whenSelected_unselected {i : Instr} (act : FeedInProgress → Channel → State) (hf : s.feed = some f)
    (hc : s.channels[f.ch]? = some c) (hs : sel c.buf ≠ i) : whenSelected i s act = .fault .stepNotSelected := by
  simp [whenSelected, hf, hc, hs]

end StepActions

end Sys2Proof.Machine
end

section
/-! CLAIM. O38: every unit emitted is legal. What R_FRAME extracts passes checks 1 and 3 of DEC, and check 4 but for
`L < 2`; what R_LINE takes is a first line of text. -/

namespace Sys2Proof.Machine

/-! ### The units of R_FRAME and R_LINE -/

/-- What R_FRAME extracts: START at the head, agreeing length bytes, and the size they give (R148). -/
structure Extracted (f : List Byte) : Prop where
  start : byteAt f 0 = Config.START
  copies : byteAt f 1 = byteAt f 2
  size : f.length = frameLen (byteAt f 1)

section Extraction
variable {buf f : List Byte} {k : DecodeError}

/-- Where R_FRAME is selected, the first `L + 6` bytes are such a sequence (R143, R148). -/
theorem extracted_of_sel (h : sel buf = .rFrame) : Extracted (buf.take (frameLen (byteAt buf 1))) := by
  have hrow := headRow_sel buf
  rw [h] at hrow
  obtain ⟨h0, h6, l, h1, h2, hwhole⟩ := hrow
  rw [byteAt_of_getElem? h1]
  have hlen : (buf.take (frameLen l)).length = frameLen l := List.length_take_of_le hwhole
  have hread {j : Nat} (hj : j < 6) : byteAt (buf.take (frameLen l)) j = byteAt buf j :=
    byteAt_of_prefix (List.take_prefix _ _) (by have := (frameLen_bounds l).1; omega)
  refine ⟨?_, ?_, ?_⟩
  · rw [hread (by decide), byteAt_of_getElem? h0]
  · rw [hread (by decide), hread (by decide), byteAt_of_getElem? h1, byteAt_of_getElem? h2]
  · rw [hlen, hread (by decide), byteAt_of_getElem? h1]

/-- The kinds with which such a sequence fails: checks 1 and 3 pass, and check 4 fails exactly when `L < 2` (R155). -/
theorem Extracted.error_cases (hf : Extracted f) (h : dec f = .error k) :
    k = .badStart ∨ (k = .sizeMismatch ∧ (byteAt f 1).toNat < 2) ∨
    ((k = .checksumMismatch ∨ k = .badEnd) ∧ 2 ≤ (byteAt f 1).toNat) := by
  obtain ⟨h0, h12, hsize⟩ := hf
  have h6 : 6 ≤ f.length := hsize ▸ (frameLen_bounds _).1
  by_cases h3 : byteAt f 3 = Config.START
  · rcases Nat.lt_or_ge (byteAt f 1).toNat 2 with hsmall | hbody
    · rw [dec_sizeMismatch h6 h0 h3 h12 (.inr hsmall)] at h
      exact .inr (.inl ⟨(Except.error.inj h).symm, hsmall⟩)
    · rw [dec_of_framed ⟨h0, h3, h12, hsize, hbody⟩] at h
      split_ifs at h
      · exact .inr (.inr ⟨.inl (Except.error.inj h).symm, hbody⟩)
      · exact .inr (.inr ⟨.inr (Except.error.inj h).symm, hbody⟩)
  · rw [dec_badStart h6 (.inr h3)] at h
    exact .inl (Except.error.inj h).symm

/-- The verdict on such a sequence is a legal unit (R155). -/
theorem Extracted.legal_frameUnit (hf : Extracted f) : (frameUnit f).Legal := by
  cases hdec : dec f with
  | ok d =>
    rw [frameUnit_ok hdec]
    exact hdec
  | error k =>
    rw [frameUnit_error hdec]
    refine ⟨hdec, ?_⟩
    rcases hf.error_cases hdec with hk | hk | ⟨hk | hk, -⟩
    · exact .inl hk
    · exact .inr (.inl hk)
    · exact .inr (.inr (.inl hk))
    · exact .inr (.inr (.inr hk))

/-- Where R_LINE is selected, the bytes up to the first NL are a legal text unit (R149, R163). -/
theorem legal_line {t rest : List Byte} (hs : sel buf = .rLine) (hb : buf = t ++ Config.NL :: rest)
    (ht : Config.NL ∉ t) : (StreamUnit.text (t ++ [Config.NL])).Legal := by
  have hrow := headRow_sel buf
  rw [hs] at hrow
  obtain ⟨-, hhead, -⟩ := hrow
  have hsame : (t ++ [Config.NL]).head? = buf[0]? := by
    rw [hb]
    cases t with
    | nil => rfl
    | cons => rfl
  exact ⟨fun h => hhead (hsame.symm.trans h), t, rfl, ht⟩

/-- The same of the line as R_LINE cuts it. -/
theorem legal_firstLine (hs : sel buf = .rLine) :
    (StreamUnit.text (buf.take (buf.idxOf Config.NL + 1))).Legal := by
  obtain ⟨t, rest, hb, ht, htake, -⟩ := firstLine (line_mem hs)
  rw [htake]
  exact legal_line hs hb ht

end Extraction

/-- Every unit DRAIN emits is legal (R155). -/
theorem DrainRun.legal {c c' : Channel} {us : List StreamUnit} (h : DrainRun c us c') : ∀ u ∈ us, u.Legal := by
  induction h with
  | stop => simp
  | resync _ _ _ _ _ ih => exact ih
  | frameOk _ _ _ _ hs hd _ ih =>
    rw [← frameUnit_ok hd]
    exact List.forall_mem_cons.mpr ⟨(extracted_of_sel hs).legal_frameUnit, ih⟩
  | frameErr _ _ _ _ hs hd _ ih =>
    rw [← frameUnit_error hd]
    exact List.forall_mem_cons.mpr ⟨(extracted_of_sel hs).legal_frameUnit, ih⟩
  | line _ _ _ _ _ hs hb ht _ ih => exact List.forall_mem_cons.mpr ⟨legal_line hs hb ht, ih⟩

/-! ### The step -/

/-- One channel replaced by one with legal units appended. -/
theorem State.UnitsLegal.of_set_channel {s t : State} {n : Nat} {c c' : Channel} {us : List StreamUnit}
    (h : s.UnitsLegal) (hc : s.channels[n]? = some c) (hch : t.channels = s.channels.set n c')
    (hunits : c'.units = c.units ++ us) (hlegal : ∀ u ∈ us, u.Legal) : t.UnitsLegal := by
  intro d hd u hu
  rw [hch] at hd
  rcases List.mem_or_eq_of_mem_set hd with hold | rfl
  · exact h d hold u hu
  · rw [hunits, List.mem_append] at hu
    exact hu.elim (h c (List.mem_of_getElem? hc) u) (hlegal u)

/-- A step action keeps the units legal (R146, R148, R149). -/
theorem State.UnitsLegal.of_stepAction {i : Instr} {s t : State} (h : s.UnitsLegal) (he : runAction i s = .next t) :
    t.UnitsLegal := by
  obtain ⟨f, c, -, hc, hs, ⟨-, rfl⟩ | ⟨-, rfl⟩ | ⟨rfl, rfl⟩ | ⟨rfl, rfl⟩⟩ := stepAction_cases he
  · exact h
  · exact h.of_set_channel hc rfl (List.append_nil _).symm (by simp)
  · exact h.of_set_channel hc rfl rfl (by simpa using (extracted_of_sel hs).legal_frameUnit)
  · exact h.of_set_channel hc rfl rfl (by simpa using legal_firstLine hs)

/-- Every instruction keeps the units legal. -/
theorem State.UnitsLegal.of_exec {i : Instr} {s t : State} (h : s.UnitsLegal) (he : exec i s = .next t) :
    t.UnitsLegal := by
  rcases exec_cases he with ⟨_, _, -, rfl⟩ | ⟨_, _, c, us, c', -, hc, -, hrun, rfl⟩ | ⟨_, -, rfl⟩ | ⟨_, rfl⟩ |
    ⟨_, _, c, -, -, hc, rfl⟩ | hact
  · exact h
  · exact h.of_set_channel hc rfl hrun.units hrun.legal
  · exact h
  · exact h
  · exact h.of_set_channel hc rfl (List.append_nil _).symm (by simp)
  · exact h.of_stepAction hact

/-- Reset keeps UNITS as it is (R49, R230). -/
theorem State.UnitsLegal.of_resetChannels {s : State} (h : s.UnitsLegal) : s.resetChannels.UnitsLegal := by
  intro c hc
  rw [State.resetChannels_channels, List.mem_map] at hc
  obtain ⟨c₀, hc₀, rfl⟩ := hc
  exact h c₀ hc₀

/-- Settles O38: an instruction emits legal units only, and every other step keeps UNITS. -/
theorem emittedUnitsAreLegal : Obligations.EmittedUnitsAreLegal := by
  intro s s' h hstep
  have hqueue (q : List HostEvent) : ({ s with pending := q } : State).UnitsLegal := h
  rcases step_cases s with ⟨f, -, he⟩ | ⟨-, ⟨_, i, q, -, he⟩ | ⟨q, he⟩ | ⟨q, he⟩ | ⟨q, he⟩⟩
  · exact h.of_exec (he.symm.trans hstep)
  · exact (hqueue q).of_exec (he.symm.trans hstep)
  · obtain rfl : _ = s' := Host.Outcome.next.inj (he.symm.trans hstep)
    exact h
  · obtain rfl : _ = s' := Host.Outcome.next.inj (he.symm.trans hstep)
    exact (hqueue q).of_resetChannels
  · obtain rfl : _ = s' := Host.Outcome.next.inj (he.symm.trans hstep)
    exact h

end Sys2Proof.Machine
end

section
/-! CLAIM. O19, O20, O21, O22, O23: each step action where its row of R96 holds, and where it does not. -/

namespace Sys2Proof.Machine

open Claims

/-- Settles O19: by the head of each of the four shapes. -/
theorem stopActionsEndTheFeed : Obligations.StopActionsEndTheFeed := by
  intro s f c hf hc
  refine ⟨fun hlen => ?_, fun h0 hlen => ?_, fun l h0 h6 h1 h2 hlen => ?_, fun h h0 hhead hnl => ?_⟩
  · exact (sel_and_headState_of_empty hlen).imp_left (exec_stop hf hc · rfl)
  · exact (sel_and_headState_of_shortStart h0 hlen).imp_left (exec_stop hf hc · rfl)
  · exact (sel_and_headState_of_partialFrame h0 h6 h1 h2 hlen).imp_left (exec_stop hf hc · rfl)
  · exact (sel_and_headState_of_text h0 hhead hnl).imp_left (exec_stop hf hc · rfl)

/-- Settles O20: the length bytes differ, so R_RESYNC is selected; the counter's 32 bits wrap. -/
theorem resyncDropsOneStart : Obligations.ResyncDropsOneStart := by
  intro s f c l m tail hf hc hb hne hlen
  have hs : sel c.buf = .rResync := by
    rw [hb]
    exact sel_of_resync rfl (Nat.add_le_add_right hlen 3) rfl rfl hne
  refine ⟨c.resyncCnt + 1#32, BitVec.toNat_add .., ?_⟩
  rw [exec_resync hf hc hs, hb]
  rfl

/-- Settles O21: the first `L + 6` bytes are the piece, so R_FRAME is selected and emits DEC's verdict on it. -/
theorem frameActionEmitsTheVerdict : Obligations.FrameActionEmitsTheVerdict := by
  intro s f c l raw rest hf hc hb h0 h1 h2 hlen
  have hread {j : Nat} (hj : j < 6) : c.buf[j]? = raw[j]? := by rw [hb, List.getElem?_append_left (by omega)]
  have hwhole : raw.length ≤ c.buf.length := by rw [hb, List.length_append]; exact Nat.le_add_right _ _
  have hl : byteAt c.buf 1 = l := byteAt_of_getElem? ((hread (by decide)).trans h1)
  have hs : sel c.buf = .rFrame := sel_of_frame ((hread (by decide)).trans h0) (by omega)
    ((hread (by decide)).trans h1) ((hread (by decide)).trans h2) (by omega)
  have hexec := exec_frame hf hc hs hb (hl ▸ hlen)
  refine ⟨fun control address payload hdec => ?_, fun k hdec => ⟨?_, fun hsmall => ?_⟩⟩
  · rwa [frameUnit_ok hdec] at hexec
  · rwa [frameUnit_error hdec] at hexec
  · obtain rfl := byteAt_of_getElem? h1
    have hpiece : Extracted raw := ⟨byteAt_of_getElem? h0, (byteAt_of_getElem? h2).symm, hlen⟩
    rcases hpiece.error_cases hdec with hk | ⟨hk, -⟩ | ⟨-, hbody⟩
    · exact .inr hk
    · exact .inl hk
    · omega

/-- Settles O22: the head is no START and NL occurs, so R_LINE is selected, and `t` ends at the first NL. -/
theorem lineActionEmitsTheLine : Obligations.LineActionEmitsTheLine := by
  intro s f c t rest hf hc hb ht hhead
  have hb' : c.buf = t ++ Config.NL :: rest := by rw [hb, List.append_assoc]; rfl
  have hnl : 0x0A#8 ∈ c.buf := by simp [hb]
  have hs : sel c.buf = .rLine := sel_eq_of_headRow ⟨List.length_pos_of_mem hnl, hhead, hnl⟩
  exact exec_line hf hc hs hb' ht

/-- Settles O23: a step action acts only where `sel` answers it, and `sel` answers an action only where its row holds. -/
theorem unselectedStepActionsStop : Obligations.UnselectedStepActionsStop := by
  intro s i hi
  obtain ⟨act, hact⟩ : ∃ act, exec i s = whenSelected i s act := by
    rcases hi with rfl | rfl | rfl | rfl | rfl | rfl | rfl <;> exact ⟨_, rfl⟩
  rw [hact]
  refine ⟨whenSelected_idle act, fun f c hf hc hrow => whenSelected_unselected act hf hc ?_⟩
  rintro rfl
  exact hrow (headRow_sel c.buf)

end Sys2Proof.Machine
end

section
/-! CLAIM. O9, O24, O26, O27, O32, O33, O34, O35, O54: DRAIN and FEED. -/

namespace Sys2Proof.Machine

open Claims

/-! ### DRAIN -/

/-- Settles O26: under either fuel DRAIN runs the algorithm, which has one result. -/
theorem drainTerminatesWithinItsFuel : Obligations.DrainTerminatesWithinItsFuel := by
  intro s f c n hf hc hfuel
  obtain ⟨us, c', hrun, hdrain⟩ := drain_spec (c.buf.length + 1) hf hc (Nat.lt_succ_self _)
  obtain ⟨us₂, c₂, hrun₂, hdrain₂⟩ := drain_spec n hf hc hfuel
  obtain ⟨rfl, rfl⟩ := hrun.unique hrun₂
  exact ⟨_, hdrain, rfl, hdrain₂⟩

/-- Every unit takes at least one byte out of the buffer (R151). -/
theorem DrainRun.units_length_le {c c' : Channel} {us : List StreamUnit} (h : DrainRun c us c') :
    us.length ≤ c.buf.length := by
  induction h with
  | stop => exact Nat.zero_le _
  | resync _ _ _ hs _ ih => exact ih.trans (resync_shorter hs).le
  | frameOk _ _ _ _ hs _ _ ih => exact ih.trans_lt (frame_shorter hs)
  | frameErr _ _ _ _ hs _ _ ih => exact ih.trans_lt (frame_shorter hs)
  | line _ _ _ t rest _ hb _ _ ih =>
    refine (Nat.succ_le_succ ih).trans ?_
    simp only [hb, List.length_append, List.length_cons]
    omega

/-- Settles O35. -/
theorem drainEmitsAtMostItsBuffer : Obligations.DrainEmitsAtMostItsBuffer := fun _ _ _ h => h.units_length_le

/-- Settles O34: of the four shapes only text has no bound; a START-headed one is short or a frame still incomplete. -/
theorem onlyTextFillsABuffer : Obligations.OnlyTextFillsABuffer := by
  intro buf hq
  rcases quiescentShape_of_quiescent hq with rfl | ⟨h0, hlen⟩ | ⟨h0, l, -, -, hlen⟩ | ⟨h, h0, hhead, hnl⟩
  · exact ⟨fun _ => Nat.zero_le _, fun cap hcap hfull => absurd hfull (by simp; omega)⟩
  · exact ⟨fun _ => by omega, fun cap hcap hfull => by omega⟩
  · have hl := l.isLt
    exact ⟨fun _ => by omega, fun cap hcap hfull => by omega⟩
  · exact ⟨fun hstart => absurd (Option.some.inj (h0.symm.trans hstart)) hhead,
      fun _ _ _ => (sel_and_headState_of_text h0 hhead hnl).2⟩

/-! ### FEED -/

section Feed
variable {s : State} {ch : BitVec 4} {b : Byte} {c c' : Channel} {us : List StreamUnit}

/-- An accepted FEED answers what a run of DRAIN after the append gives (R140). -/
theorem exec_feed_of_drainRun (hc : s.channels[ch.toNat]? = some c) (haccepted : c.buf.length ≠ s.bufCap)
    (hrun : DrainRun ⟨c.buf ++ [b], c.resyncCnt, c.units⟩ us c') :
    exec (.feed ch b) s = .next (fed s ch.toNat c' us) :=
  execFeed_accepted hc haccepted hrun

/-- A FEED after which the buffer still waits only stores its byte (R142). -/
theorem exec_feed_of_quiescent (hc : s.channels[ch.toNat]? = some c) (haccepted : c.buf.length ≠ s.bufCap)
    (hwait : Quiescent (c.buf ++ [b])) :
    exec (.feed ch b) s = .next (fed s ch.toNat ⟨c.buf ++ [b], c.resyncCnt, c.units⟩ []) :=
  exec_feed_of_drainRun hc haccepted (.stop _ hwait)

end Feed

/-- Settles O24: DRAIN ends (R151), and what it emits is what it appends to UNITS. -/
theorem feedAppendsAndDrains : Obligations.FeedAppendsAndDrains := by
  intro s ch b c hc haccepted
  obtain ⟨us, c', hrun, -⟩ := feedChunk_spec [b] hc
  exact ⟨us, c', hrun, hrun.units, exec_feed_of_drainRun hc haccepted hrun⟩

/-- Settles O27: DRAIN ends quiescent. -/
theorem feedLeavesTheChannelQuiescent : Obligations.FeedLeavesTheChannelQuiescent := by
  intro s t ch b c hc haccepted hexec
  obtain ⟨us, c', hrun, -, hfed⟩ := feedAppendsAndDrains s ch b c hc haccepted
  obtain rfl := Host.Outcome.next.inj (hfed.symm.trans hexec)
  exact ⟨c', getElem?_set_of_some hc, hrun.quiescent, quiescentShape_of_quiescent hrun.quiescent⟩

/-- Settles O54: by the bound on DRAIN, from the buffer with the byte appended. -/
theorem feedAnswersAtMostItsBuffer : Obligations.FeedAnswersAtMostItsBuffer := by
  intro s ch b c hc hroom
  obtain ⟨us, c', hrun, hunits, hfed⟩ := feedAppendsAndDrains s ch b c hc hroom.ne
  have hbound : us.length ≤ (c.buf ++ [b]).length := hrun.units_length_le
  refine ⟨us, c', hfed, hunits, hbound, hbound.trans ?_⟩
  rw [List.length_append]
  exact hroom

/-- Settles O9: the FEED is not accepted, so it changes nothing; with no withdraw or reset behind it, it stays pending. -/
theorem feedOnFullBufferIsNotAccepted : Obligations.FeedOnFullBufferIsNotAccepted := by
  intro s ch b c hc hfull
  have hheld : notAccepted (.feed ch b) s = true := by simp [notAccepted, hc, hfull]
  have hexec : exec (.feed ch b) s = .next s := exec_of_notAccepted hheld
  refine ⟨hexec, fun t hf hd => ?_⟩
  have hfetch {rest : List HostEvent} (hp : s.pending = .issue t :: rest) : fetch s = heldFeed (.feed ch b) rest s := by
    have hd' : decodeHost t = .ok (.feed ch b) := hd
    simp [fetch, hf, hp, fetchTransaction, hd', hheld]
  refine ⟨fun hp => ?_, fun u rest hp => ?_⟩
  · rw [step, hfetch hp]
    exact hexec
  · rw [step, hfetch hp]
    exact hexec

/-- Settles O32: text with another byte is still text; with NL it is one whole line, and the buffer is then empty. -/
theorem textAbsorbsUntilNewline : Obligations.TextAbsorbsUntilNewline := by
  intro s ch b h c hc haccepted h0 hhead hnl
  obtain ⟨hpos, -⟩ := List.getElem?_eq_some_iff.mp h0
  have h0' : (c.buf ++ [b])[0]? = some h := by rw [List.getElem?_append_left hpos, h0]
  constructor
  · intro hb
    have hnl' : 0x0A#8 ∉ c.buf ++ [b] := by simp [hnl, hb.symm]
    exact exec_feed_of_quiescent hc haccepted (quiescent_of_quiescentShape (.inr (.inr (.inr ⟨h, h0', hhead, hnl'⟩))))
  · rintro rfl
    have hs : sel (c.buf ++ [0x0A#8]) = .rLine := sel_eq_of_headRow ⟨by simp, by rw [h0']; simpa using hhead, by simp⟩
    exact exec_feed_of_drainRun hc haccepted (.line _ _ [] c.buf [] hs rfl hnl (.stop _ quiescent_nil))

/-- Settles O33: one byte more still makes fewer than 6. -/
theorem shortStartBufferWaits : Obligations.ShortStartBufferWaits := by
  intro s ch b c hc haccepted h0 hlen
  obtain ⟨hpos, -⟩ := List.getElem?_eq_some_iff.mp h0
  refine exec_feed_of_quiescent hc haccepted (quiescent_of_quiescentShape (.inr (.inl ⟨?_, ?_⟩)))
  · rw [List.getElem?_append_left hpos, h0]
  · rw [List.length_append, List.length_singleton]
    omega

end Sys2Proof.Machine
end

section
/-! CLAIM. O29, O30: sequences of FEEDs. A DRAIN that ended goes on, once more bytes are appended, as one DRAIN of all the
bytes would: a progress action reads a head of the buffer only. So FEEDs, chunks and one append are the same run. -/

namespace Sys2Proof.Machine

/-! ### DRAIN of a buffer with more bytes behind it -/

section MoreBytes
variable {buf x : List Byte}

/-- A byte in the buffer stays where it is. -/
theorem getElem?_append_of_some {b : Byte} {j : Nat} (h : buf[j]? = some b) : (buf ++ x)[j]? = some b := by
  obtain ⟨hj, -⟩ := List.getElem?_eq_some_iff.mp h
  rw [List.getElem?_append_left hj, h]

/-- R_RESYNC stays selected. -/
theorem sel_append_of_resync (h : sel buf = .rResync) : sel (buf ++ x) = .rResync := by
  have hrow := headRow_sel buf
  rw [h] at hrow
  obtain ⟨h0, h6, l, m, h1, h2, hne⟩ := hrow
  have hlonger : buf.length ≤ (buf ++ x).length := by simp
  exact sel_of_resync (getElem?_append_of_some h0) (h6.trans hlonger) (getElem?_append_of_some h1)
    (getElem?_append_of_some h2) hne

/-- R_FRAME stays selected and extracts the same bytes: its frame is whole already. -/
theorem sel_append_of_frame (h : sel buf = .rFrame) : sel (buf ++ x) = .rFrame ∧
    (buf ++ x).take (frameLen (byteAt (buf ++ x) 1)) = buf.take (frameLen (byteAt buf 1)) ∧
    (buf ++ x).drop (frameLen (byteAt (buf ++ x) 1)) = buf.drop (frameLen (byteAt buf 1)) ++ x := by
  have hrow := headRow_sel buf
  rw [h] at hrow
  obtain ⟨h0, h6, l, h1, h2, hwhole⟩ := hrow
  have hlonger : buf.length ≤ (buf ++ x).length := by simp
  rw [byteAt_of_getElem? h1, byteAt_of_getElem? (getElem?_append_of_some h1)]
  exact ⟨sel_of_frame (getElem?_append_of_some h0) (h6.trans hlonger) (getElem?_append_of_some h1)
    (getElem?_append_of_some h2) (hwhole.trans hlonger), List.take_append_of_le_length hwhole,
    List.drop_append_of_le_length hwhole⟩

/-- R_LINE stays selected. -/
theorem sel_append_of_line (h : sel buf = .rLine) : sel (buf ++ x) = .rLine := by
  have hrow := headRow_sel buf
  rw [h] at hrow
  obtain ⟨hpos, hhead, hnl⟩ := hrow
  refine sel_eq_of_headRow ⟨?_, ?_, List.mem_append_left x hnl⟩
  · exact hpos.trans (by simp)
  · rwa [List.getElem?_append_left hpos]

end MoreBytes

/-- A DRAIN that ended, and the DRAIN of what it left with more bytes behind it, are one DRAIN of all the bytes (R152). -/
theorem DrainRun.append {c c₁ c₂ : Channel} {us us₂ : List StreamUnit} {x : List Byte} (h : DrainRun c us c₁)
    (hrest : DrainRun { c₁ with buf := c₁.buf ++ x } us₂ c₂) :
    DrainRun { c with buf := c.buf ++ x } (us ++ us₂) c₂ := by
  induction h with
  | stop => exact hrest
  | resync c c₁ us hs _ ih =>
    have h1 : 1 ≤ c.buf.length := Nat.one_le_of_lt (resync_shorter hs)
    refine .resync _ _ _ (sel_append_of_resync hs) ?_
    simpa only [List.drop_append_of_le_length h1] using ih hrest
  | frameOk c c₁ us d hs hd _ ih =>
    obtain ⟨hs', htake, hdrop⟩ := sel_append_of_frame (x := x) hs
    have hrun := DrainRun.frameOk { c with buf := c.buf ++ x } c₂ (us ++ us₂) d hs'
    simp only [htake, hdrop] at hrun
    exact hrun hd (ih hrest)
  | frameErr c c₁ us k hs hd _ ih =>
    obtain ⟨hs', htake, hdrop⟩ := sel_append_of_frame (x := x) hs
    have hrun := DrainRun.frameErr { c with buf := c.buf ++ x } c₂ (us ++ us₂) k hs'
    simp only [htake, hdrop] at hrun
    exact hrun hd (ih hrest)
  | line c c₁ us t rest hs hb ht _ ih =>
    have hb' : c.buf ++ x = t ++ Config.NL :: (rest ++ x) := by rw [hb, List.append_assoc, List.cons_append]
    exact .line _ _ _ t (rest ++ x) (sel_append_of_line hs) hb' ht (ih hrest)

/-! ### FEEDs and chunks as one run of DRAIN -/

/-- A sequence of accepted FEEDs begins with one. -/
theorem feedAll_cons_cases {ch : BitVec 4} {b : Byte} {bs : List Byte} {s t : State} {c : Channel}
    (hc : s.channels[ch.toNat]? = some c) (h : feedAll ch (b :: bs) s = some t) :
    ∃ us c', DrainRun { c with buf := c.buf ++ [b] } us c' ∧
      feedAll ch bs (fedState s ⟨ch.toNat, []⟩ us c') = some t := by
  have haccepted : c.buf.length ≠ s.bufCap := by
    intro hfull
    simp [feedAll, hc, hfull] at h
  obtain ⟨us, c', hrun, -⟩ := feedChunk_spec [b] hc
  exact ⟨us, c', hrun, (feedAll_cons_accepted hc haccepted hrun).symm.trans h⟩

/-- Accepted FEEDs do to their channel what one DRAIN of all their bytes does; none at all do so to a quiescent one. -/
theorem feedAll_drains {ch : BitVec 4} {bs : List Byte} {s t : State} {c : Channel}
    (hc : s.channels[ch.toNat]? = some c) (hsome : bs ≠ [] ∨ Quiescent c.buf) (h : feedAll ch bs s = some t) :
    ∃ us c', DrainRun { c with buf := c.buf ++ bs } us c' ∧ t.channels = s.channels.set ch.toNat c' := by
  induction bs generalizing s c with
  | nil =>
    obtain rfl : s = t := Option.some.inj h
    have hq : Quiescent c.buf := hsome.resolve_left (· rfl)
    exact ⟨[], c, by simpa using DrainRun.stop c hq, congrArg State.channels (setChannel_self hc).symm⟩
  | cons b bs ih =>
    obtain ⟨us, c₁, hrun, hfed⟩ := feedAll_cons_cases hc h
    obtain ⟨us₂, c₂, hrun₂, hch⟩ := ih (getElem?_set_of_some hc) (.inr hrun.quiescent) hfed
    refine ⟨us ++ us₂, c₂, by simpa using hrun.append hrun₂, ?_⟩
    rw [hch, fedState_channels, List.set_set]

/-- Chunks fed to a quiescent channel do to it what one DRAIN of all their bytes does (R152). -/
theorem chunkAll_drains {ch : Nat} {chunks : List (List Byte)} {s : State} {c : Channel}
    (hc : s.channels[ch]? = some c) (hq : Quiescent c.buf) : ∃ t us c', chunkAll ch chunks s = some t ∧
      DrainRun { c with buf := c.buf ++ chunks.flatten } us c' ∧ t.channels = s.channels.set ch c' := by
  induction chunks generalizing s c with
  | nil => exact ⟨s, [], c, rfl, by simpa using DrainRun.stop c hq, congrArg State.channels (setChannel_self hc).symm⟩
  | cons bs chunks ih =>
    obtain ⟨us, c₁, hrun, hfed⟩ := feedChunk_spec bs hc
    obtain ⟨t, us₂, c₂, ht, hrun₂, hch⟩ := ih (s := fedState s ⟨ch, []⟩ us c₁) (getElem?_set_of_some hc)
      hrun.quiescent
    refine ⟨t, us ++ us₂, c₂, ?_, by simpa using hrun.append hrun₂, ?_⟩
    · simpa [chunkAll, hc, hfed] using ht
    · rw [hch, fedState_channels, List.set_set]

/-- Settles O30: the FEEDs and the chunks are the same run of DRAIN, which has one result. -/
theorem chunkingChangesNothing : Obligations.ChunkingChangesNothing := by
  intro s t ch chunks c hc hq hfed
  obtain ⟨us, c', hrun, hch⟩ := feedAll_drains hc (.inr hq) hfed
  obtain ⟨t', us', c₂, hchunks, hrun', hch'⟩ := chunkAll_drains (chunks := chunks) hc hq
  obtain ⟨rfl, rfl⟩ := hrun.unique hrun'
  exact ⟨t', hchunks, hch'.trans hch.symm⟩

/-! ### The pieces of a run -/

@[simp] theorem unitsOf_nil : unitsOf [] = [] := rfl
@[simp] theorem unitsOf_dropped (ps : List Piece) : unitsOf (.dropped :: ps) = unitsOf ps := rfl
@[simp] theorem unitsOf_emitted (u : StreamUnit) (ps : List Piece) : unitsOf (.emitted u :: ps) = u :: unitsOf ps := rfl
@[simp] theorem dropsOf_nil : dropsOf [] = 0 := rfl
@[simp] theorem dropsOf_dropped (ps : List Piece) : dropsOf (.dropped :: ps) = dropsOf ps + 1 := by simp [dropsOf]
@[simp] theorem dropsOf_emitted (u : StreamUnit) (ps : List Piece) : dropsOf (.emitted u :: ps) = dropsOf ps := by
  simp [dropsOf]

/-- The bytes of the buffer `b` are those of the pieces `ps` and then `c'`'s buffer; the pieces' units are `us`, and from
the counter `n` to that of `c'` every drop is counted (R154, R156). -/
structure Conserved (b : List Byte) (n : Word) (us : List StreamUnit) (c' : Channel) (ps : List Piece) : Prop where
  bytes : b = ps.flatMap Piece.bytes ++ c'.buf
  units : us = unitsOf ps
  drops : c'.resyncCnt = n + BitVec.ofNat 32 (dropsOf ps)

section PieceInFront
variable {b rest : List Byte} {n : Word} {us : List StreamUnit} {c' : Channel} {ps : List Piece}

/-- A unit emitted in front is one piece more. -/
theorem Conserved.emitted {u : StreamUnit} (h : Conserved rest n us c' ps) (hb : b = u.raw ++ rest) :
    Conserved b n (u :: us) c' (.emitted u :: ps) where
  bytes := by simp [Piece.bytes, hb, h.bytes]
  units := by simp [h.units]
  drops := by simp [h.drops]

/-- A START dropped in front is one piece more, and counted. -/
theorem Conserved.dropped (h : Conserved rest (n + 1#32) us c' ps) (hb : b = 0x68#8 :: rest) :
    Conserved b n us c' (.dropped :: ps) where
  bytes := by simp [Piece.bytes, hb, h.bytes]
  units := by simp [h.units]
  drops := by rw [h.drops, dropsOf_dropped, Nat.add_comm, BitVec.ofNat_add, BitVec.add_assoc]

end PieceInFront

/-- R_RESYNC takes a START off the buffer (R146). -/
theorem eq_start_cons_of_resync {b : List Byte} (h : sel b = .rResync) : b = 0x68#8 :: b.drop 1 := by
  have hrow := headRow_sel b
  rw [h] at hrow
  obtain ⟨h0, -⟩ := hrow
  cases b with
  | nil => simp at h0
  | cons x xs => simpa using h0

/-- DRAIN takes pieces off the buffer and loses nothing (R154, R156). -/
theorem DrainRun.conserved {c c' : Channel} {us : List StreamUnit} (h : DrainRun c us c') :
    ∃ ps, Conserved c.buf c.resyncCnt us c' ps := by
  induction h with
  | stop => exact ⟨[], by simp, rfl, by simp⟩
  | resync _ _ _ hs _ ih =>
    obtain ⟨ps, hps⟩ := ih
    exact ⟨.dropped :: ps, hps.dropped (eq_start_cons_of_resync hs)⟩
  | frameOk _ _ _ _ _ _ _ ih =>
    obtain ⟨ps, hps⟩ := ih
    exact ⟨_, hps.emitted (List.take_append_drop _ _).symm⟩
  | frameErr _ _ _ _ _ _ _ ih =>
    obtain ⟨ps, hps⟩ := ih
    exact ⟨_, hps.emitted (List.take_append_drop _ _).symm⟩
  | line _ _ _ _ _ _ hb _ _ ih =>
    obtain ⟨ps, hps⟩ := ih
    exact ⟨_, hps.emitted (hb.trans (List.append_cons ..))⟩

/-- Settles O29: the FEEDs are one run of DRAIN; with none of them, there is no piece. -/
theorem fedBytesAreConserved : Obligations.FedBytesAreConserved := by
  intro s t ch bs c hc hfed
  by_cases hbs : bs = []
  · subst hbs
    obtain rfl : s = t := Option.some.inj hfed
    exact ⟨[], c, hc, by simp, by simp, by simp⟩
  · obtain ⟨us, c', hrun, hch⟩ := feedAll_drains hc (.inl hbs) hfed
    obtain ⟨ps, hbytes, rfl, hdrops⟩ := hrun.conserved
    exact ⟨ps, c', hch ▸ getElem?_set_of_some hc, hbytes, hrun.units, hdrops⟩

end Sys2Proof.Machine
end

section
/-! CLAIM. O8, O41: no step stops the machine, and an error only answers. -/

namespace Sys2Proof.Machine

open Claims

/-! ### O8: every step answers, and a FEED stays on its channel -/

/-- A reset leaves no FEED in progress (R230). -/
theorem State.feedOnChannel_resetChannels (s : State) : s.resetChannels.FeedOnChannel := by
  intro f hf
  cases hf

/-- A FEED in progress after a step action goes on where it was (R142). -/
theorem stepAction_feed_ch {i : Instr} {s t : State} {f : FeedInProgress} (h : runAction i s = .next t)
    (hf : t.feed = some f) : ∃ f₀, s.feed = some f₀ ∧ f₀.ch = f.ch := by
  obtain ⟨f₀, c, hf₀, -, -, ⟨-, rfl⟩ | ⟨-, rfl⟩ | ⟨-, rfl⟩ | ⟨-, rfl⟩⟩ := stepAction_cases h
  · cases hf
  · exact ⟨f, hf, rfl⟩
  · cases hf
    exact ⟨f₀, hf₀, rfl⟩
  · cases hf
    exact ⟨f₀, hf₀, rfl⟩

/-- No instruction leaves a FEED in progress that was not, or moves one to another channel (R40, R142). -/
theorem exec_feed_ch {i : Instr} {s t : State} {f : FeedInProgress} (h : exec i s = .next t) (hf : t.feed = some f) :
    ∃ f₀, s.feed = some f₀ ∧ f₀.ch = f.ch := by
  rcases exec_cases h with ⟨_, _, -, rfl⟩ | ⟨_, _, _, _, _, -, -, -, -, rfl⟩ | ⟨_, -, rfl⟩ | ⟨_, rfl⟩ |
    ⟨_, _, _, -, -, -, rfl⟩ | hact
  · exact ⟨f, hf, rfl⟩
  · cases hf
  · exact ⟨f, hf, rfl⟩
  · exact ⟨f, hf, rfl⟩
  · exact ⟨f, hf, rfl⟩
  · exact stepAction_feed_ch hact hf

/-- Every instruction keeps a FEED in progress on a channel the block has. -/
theorem State.FeedOnChannel.of_exec {i : Instr} {s t : State} (h : s.FeedOnChannel) (he : exec i s = .next t) :
    t.FeedOnChannel := by
  intro f hf
  obtain ⟨f₀, hf₀, hch⟩ := exec_feed_ch he hf
  obtain ⟨-, hlen, -⟩ := execKeepsParametersAndQueue i s t he
  rw [hlen, ← hch]
  exact h f₀ hf₀

/-- The action that a channel's buffer selects has an effect there: it stops DRAIN or makes progress (R97, R142). -/
theorem exec_sel_answers {s : State} {f : FeedInProgress} {c : Channel} (hf : s.feed = some f)
    (hc : s.channels[f.ch]? = some c) : ∃ t, exec (sel c.buf) s = .next t := by
  rw [exec_sel]
  by_cases hstop : stopAction (sel c.buf) = true
  · exact ⟨_, runAction_stop hf hc hstop⟩
  rcases sel_cases c.buf with ⟨h, -⟩ | ⟨h, -⟩ | ⟨h, -⟩ | ⟨h, -⟩ | ⟨h, -⟩ | ⟨h, -⟩ | ⟨h, -⟩ <;> rw [h] at hstop ⊢
  · exact absurd rfl hstop
  · exact absurd rfl hstop
  · exact ⟨_, runAction_resync hf hc h⟩
  · exact absurd rfl hstop
  · exact ⟨_, runAction_frame hf hc h⟩
  · exact ⟨_, runAction_line hf hc h⟩
  · exact absurd rfl hstop

/-- A host operation answers a next state from every state, an error included (R206). -/
theorem exec_host_answers {i : Instr} {t : Transaction} (s : State) (hhost : encode i = .host t) :
    ∃ s', exec i s = .next s' := by
  cases i with
  | feed ch b =>
    rcases execFeed_cases ch b s with ⟨-, he⟩ | ⟨_, -, -, he⟩ | ⟨_, _, _, -, -, -, he⟩
    · exact ⟨_, he⟩
    · exact ⟨_, he⟩
    · exact ⟨_, he⟩
  | encode control address payload => exact (execEncode_cases control address payload s).elim (⟨_, ·⟩) (⟨_, ·⟩)
  | decode f => exact ⟨_, rfl⟩
  | csrRd ch k =>
    rcases execCsrRd_cases ch k s with he | ⟨_, _, -, -, he⟩
    · exact ⟨_, he⟩
    · exact ⟨_, he⟩
  | csrWr ch k v =>
    rcases execCsrWr_cases ch k v s with he | ⟨_, _, -, -, he⟩
    · exact ⟨_, he⟩
    · exact ⟨_, he⟩
  | _ => cases hhost

/-- Settles O8: inside a FEED the step is the action its buffer selects, between transactions a host operation or an event
that runs no instruction. -/
theorem stepNeverStops : Obligations.StepNeverStops := by
  intro s h
  have hqueue (q : List HostEvent) : ({ s with pending := q } : State).FeedOnChannel := h
  rcases step_cases s with ⟨f, hf, hstep⟩ | ⟨-, ⟨t, i, q, hd, hstep⟩ | ⟨q, hstep⟩ | ⟨q, hstep⟩ | ⟨q, hstep⟩⟩
  · have hc : s.channels[f.ch]? = some _ := List.getElem?_eq_getElem (h f hf)
    obtain ⟨s', he⟩ := exec_sel_answers hf hc
    rw [State.bufOf_some hc] at hstep
    exact ⟨s', hstep.trans he, h.of_exec he⟩
  · obtain ⟨-, hhost⟩ := acceptedTransactionIsItsEncoding t i hd
    obtain ⟨s', he⟩ := exec_host_answers { s with pending := q } hhost
    exact ⟨s', hstep.trans he, (hqueue q).of_exec he⟩
  · exact ⟨_, hstep, hqueue q⟩
  · exact ⟨_, hstep, State.feedOnChannel_resetChannels _⟩
  · exact ⟨_, hstep, hqueue q⟩

/-! ### O41: what an error does -/

/-- The answer of a step action, if it gives one, is OK (R140, R142). -/
theorem stepAction_status_ok {i : Instr} {s t : State} {r : Response} (h : runAction i s = .next t)
    (hr : t.responses = s.responses ++ [r]) : r.status = .ok := by
  obtain ⟨f, c, -, -, -, ⟨-, rfl⟩ | ⟨-, rfl⟩ | ⟨-, rfl⟩ | ⟨-, rfl⟩⟩ := stepAction_cases h
  · obtain rfl := List.singleton_inj.mp (List.append_cancel_left hr)
    rfl
  · simp at hr
  · simp at hr
  · simp at hr

/-- An instruction that answers an error has raised it and done nothing else (R209). -/
theorem eq_raise_of_error {i : Instr} {s t : State} {r : Response} (h : exec i s = .next t)
    (hr : t.responses = s.responses ++ [r]) (herr : r.status ≠ .ok) : t = s.raise r.status ∧ r.data = .none := by
  have answer {r₀ : Response} (h₀ : t.responses = s.responses ++ [r₀]) : r₀ = r :=
    List.singleton_inj.mp (List.append_cancel_left (h₀.symm.trans hr))
  rcases exec_cases h with ⟨_, _, -, rfl⟩ | ⟨_, _, _, _, _, -, -, -, -, rfl⟩ | ⟨st, -, rfl⟩ | ⟨_, rfl⟩ |
    ⟨_, _, _, -, -, -, rfl⟩ | hact
  · simp at hr
  · exact absurd (answer rfl ▸ rfl) herr
  · obtain rfl := answer rfl
    exact ⟨rfl, rfl⟩
  · exact absurd (answer rfl ▸ rfl) herr
  · exact absurd (answer rfl ▸ rfl) herr
  · exact absurd (stepAction_status_ok hact hr) herr

/-- Settles O41: raising an error is answering its status without data. -/
theorem errorsHaveNoOtherEffect : Obligations.ErrorsHaveNoOtherEffect := by
  intro i s t r h hr herr
  obtain ⟨ht, hdata⟩ := eq_raise_of_error h hr herr
  exact ⟨hdata, ht⟩

end Sys2Proof.Machine
end

section
/-! CLAIM. O10: how a refused FEED ends. -/

namespace Sys2Proof.Machine

/-- A channel holding BUF_CAP bytes does not accept a FEED (R141). -/
theorem notAccepted_feed_of_full {s : State} {ch : BitVec 4} {c : Channel} (b : Byte)
    (hc : s.channels[ch.toNat]? = some c) (hfull : c.buf.length = s.bufCap) : notAccepted (.feed ch b) s = true := by
  simp [notAccepted, hc, hfull]

/-- While the next transaction is a refused FEED, the event behind it decides what happens (log 4). -/
theorem fetch_of_notAccepted {s : State} {t : Transaction} {rest : List HostEvent} {i : Instr} (hf : s.feed = none)
    (hp : s.pending = .issue t :: rest) (hd : decodeHost t = .ok i) (hheld : notAccepted i s = true) :
    fetch s = heldFeed i rest s := by
  simp [fetch, hf, hp, fetchTransaction, hd, hheld]

/-- Settles O10: the FEED is held, and neither event behind it runs an instruction; a reset clears every channel. -/
theorem refusedFeedIsNotPerformed : Obligations.RefusedFeedIsNotPerformed := by
  intro s t ch b c rest hf hd hc hfull
  have hheld : notAccepted (.feed ch b) s = true := notAccepted_feed_of_full b hc hfull
  refine ⟨fun hp => ⟨({ s with pending := rest } : State).resetChannels, ?_, rfl, rfl, fun n d hn => ?_⟩, fun hp => ?_⟩
  · rw [step, fetch_of_notAccepted hf hp hd hheld]
    rfl
  · rw [State.resetChannels_channels, List.getElem?_map, hn]
    rfl
  · rw [step, fetch_of_notAccepted hf hp hd hheld]
    rfl

end Sys2Proof.Machine
end

section
/-! CLAIM. O4: words written out from the spec. A transaction decodes because it is its instruction's encoding, a buffer
head because its row of R96 holds. -/

namespace Sys2Proof

open Machine

/-- Reading back what the encoder wrote (R88 to R92). -/
theorem decode_eq_of_encode {i : Instr} {e : Encoding} (hwf : i.wf = true) (he : encode i = e) : decode e = .ok i :=
  he ▸ decodeInvertsEncode i hwf

/-- A head decodes to the action whose row of R96 holds of it. -/
theorem decode_head_of_headRow {i : Instr} {buf : List Byte} (h : HeadRow i buf) : decode (.head buf) = .ok i :=
  congrArg Except.ok (sel_eq_of_headRow h)

/-- Settles O4: each transaction is what R88 to R92 write for its instruction; the heads are R_RESYNC's, whose length
bytes differ, R_WAIT_HDR's, five bytes long, and R_LINE's, no START but an NL. -/
theorem specWordsDecode : Obligations.SpecWordsDecode := by
  refine ⟨?feed, ?encode, ?decode, ?csrRd, ?csrWr, ?resync, ?waitHdr, ?line⟩
  case feed => exact decode_eq_of_encode rfl rfl
  case encode => exact decode_eq_of_encode rfl rfl
  case decode => exact decode_eq_of_encode rfl rfl
  case csrRd => exact decode_eq_of_encode rfl rfl
  case csrWr => exact decode_eq_of_encode rfl rfl
  case resync => exact decode_head_of_headRow ⟨rfl, by decide, 0x05#8, 0x09#8, rfl, rfl, by decide⟩
  case waitHdr => exact decode_head_of_headRow ⟨rfl, by decide, by decide⟩
  case line => exact decode_head_of_headRow ⟨by decide, by decide, by decide⟩

end Sys2Proof
end
